-- ==== Sys2Proof/Word.lean ====
section
/-! DEFINITION. The unit of both byte spaces (spec/20_memory.md R30).  The numbers of the codec are
mathematical integers (R8, R135), so there is no machine word; a wire word is a natural number below
`2 ^ (8 * len)` (R7) and a wire field a bit vector of its stated width (R51). -/

namespace Sys2Proof

/-- One 8-bit byte (R30). -/
abbrev Byte := BitVec 8

end Sys2Proof
end

