-- ==== Sys2Proof/Config.lean ====
section
/-! DEFINITION. The implementation parameters of spec/00_scope.md R5 as named fields, so that a claim
can quantify over them (their values in this spec are `Sys2Proof.Machine.codecConfig`), and the one
free value of the model. -/

namespace Sys2Proof

/-- The ten wire fields, in the canonical order of R13 (index 0 to 9); `tz` is the wire form of
tz_offset (R111). -/
inductive Field where
  | year | month | day | hour | minute | second | millisecond | microsecond | nanosecond | tz
  deriving DecidableEq, Repr

/-- A field descriptor (R110): the range of wire values and the sentinel, if the field has one
(the three sub-second fields have none, R126).  The width is `Field.width` (R51). -/
structure FieldDesc where
  min : Nat
  max : Nat
  sentinel : Option Nat
  deriving DecidableEq, Repr

/-- The parameters of R5 a model may replace: one descriptor per field, the timezone step and bias,
and the widths `IN_W` and `LEN_W` of the numeric ports. -/
structure Config where
  year : FieldDesc
  month : FieldDesc
  day : FieldDesc
  hour : FieldDesc
  minute : FieldDesc
  second : FieldDesc
  millisecond : FieldDesc
  microsecond : FieldDesc
  nanosecond : FieldDesc
  tz : FieldDesc
  tzStep : Nat
  tzBias : Nat
  inW : Nat
  lenW : Nat
  deriving DecidableEq, Repr

/-- The descriptor that serves a field in every layout that has it (R110). -/
def Config.desc (c : Config) : Field → FieldDesc
  | .year => c.year
  | .month => c.month
  | .day => c.day
  | .hour => c.hour
  | .minute => c.minute
  | .second => c.second
  | .millisecond => c.millisecond
  | .microsecond => c.microsecond
  | .nanosecond => c.nanosecond
  | .tz => c.tz

/-- FREE VALUE (spec/93_implementation_defined.md U6): how far the stream's cursor has moved after the
`n`-th failed `decode_from_stream`.  Nothing constrains it: R43 leaves the cursor unspecified, and U6
says "any value not less than the starting position".  notes/assumptions/7.md. -/
opaque Config.freeCursorAdvance : Nat → Nat

end Sys2Proof
end

