-- ==== Sys2Proof/Syntax.lean ====
section
/-! DEFINITION. The layouts (spec/30_encoding.md R71) and the instructions: one constructor per row of
spec/opcode_table.json.  The encoded value is this block's counterpart of an instruction word: a tag
(the opcode) and fields (R50), so an instruction is a layout with its wire values. -/

namespace Sys2Proof

/-- The single sub-second unit a layout stores (R9, R72 column `sub`). -/
inductive Precision where
  | none | ms | us | ns
  deriving DecidableEq, Repr

/-- The six family names, in the order of `enc_vreq` 1 to 6 (R16, R91). -/
inductive Family where
  | d | t | dt | dtz | dts | dtsz
  deriving DecidableEq, Repr

/-- The twelve layouts, in the order of `lid` 0 to 11 (R71). -/
inductive Lid where
  | d | t | dt | dtz | dtsNone | dtsMs | dtsUs | dtsNs | dtszNone | dtszMs | dtszUs | dtszNs
  deriving DecidableEq, Repr

/-- The instructions.  Operands are the wire values in wire order, each in its width (R51 to R63);
pad bits are no operand, since a decoder does not look at them (R67).  A reserved row (R66) has the
don't-care bits of its byte 0 as its operand. -/
inductive Instr where
  | d (year : BitVec 12) (month : BitVec 4) (day : BitVec 5)
  | t (hour : BitVec 5) (minute : BitVec 6) (second : BitVec 6)
  | dt (year : BitVec 12) (month : BitVec 4) (day : BitVec 5)
      (hour : BitVec 5) (minute : BitVec 6) (second : BitVec 6)
  | dtz (year : BitVec 12) (month : BitVec 4) (day : BitVec 5)
      (hour : BitVec 5) (minute : BitVec 6) (second : BitVec 6) (tz : BitVec 7)
  | dtsNone (year : BitVec 12) (month : BitVec 4) (day : BitVec 5)
      (hour : BitVec 5) (minute : BitVec 6) (second : BitVec 6)
  | dtsMs (year : BitVec 12) (month : BitVec 4) (day : BitVec 5)
      (hour : BitVec 5) (minute : BitVec 6) (second : BitVec 6) (millisecond : BitVec 10)
  | dtsUs (year : BitVec 12) (month : BitVec 4) (day : BitVec 5)
      (hour : BitVec 5) (minute : BitVec 6) (second : BitVec 6) (microsecond : BitVec 20)
  | dtsNs (year : BitVec 12) (month : BitVec 4) (day : BitVec 5)
      (hour : BitVec 5) (minute : BitVec 6) (second : BitVec 6) (nanosecond : BitVec 30)
  | dtszNone (year : BitVec 12) (month : BitVec 4) (day : BitVec 5)
      (hour : BitVec 5) (minute : BitVec 6) (second : BitVec 6) (tz : BitVec 7)
  | dtszMs (year : BitVec 12) (month : BitVec 4) (day : BitVec 5)
      (hour : BitVec 5) (minute : BitVec 6) (second : BitVec 6) (tz : BitVec 7)
      (millisecond : BitVec 10)
  | dtszUs (year : BitVec 12) (month : BitVec 4) (day : BitVec 5)
      (hour : BitVec 5) (minute : BitVec 6) (second : BitVec 6) (tz : BitVec 7)
      (microsecond : BitVec 20)
  | dtszNs (year : BitVec 12) (month : BitVec 4) (day : BitVec 5)
      (hour : BitVec 5) (minute : BitVec 6) (second : BitVec 6) (tz : BitVec 7)
      (nanosecond : BitVec 30)
  | reserved1010001x (x : BitVec 1)
  | reserved101001xx (x : BitVec 2)
  | reserved10101xxx (x : BitVec 3)
  | reserved1011xxxx (x : BitVec 4)
  deriving DecidableEq, Repr

/-- Wire values by field: what the field codec hands to the packer, and the unpacker to the inverse
codec (R119, R183). -/
abbrev Wire := List (Field × Nat)

/-- The wire values an instruction carries. -/
def Instr.operands : Instr → Wire
  | .d y mo dy => [(.year, y.toNat), (.month, mo.toNat), (.day, dy.toNat)]
  | .t h mi s => [(.hour, h.toNat), (.minute, mi.toNat), (.second, s.toNat)]
  | .dt y mo dy h mi s | .dtsNone y mo dy h mi s =>
    [(.year, y.toNat), (.month, mo.toNat), (.day, dy.toNat),
     (.hour, h.toNat), (.minute, mi.toNat), (.second, s.toNat)]
  | .dtz y mo dy h mi s z | .dtszNone y mo dy h mi s z =>
    [(.year, y.toNat), (.month, mo.toNat), (.day, dy.toNat),
     (.hour, h.toNat), (.minute, mi.toNat), (.second, s.toNat), (.tz, z.toNat)]
  | .dtsMs y mo dy h mi s f =>
    [(.year, y.toNat), (.month, mo.toNat), (.day, dy.toNat),
     (.hour, h.toNat), (.minute, mi.toNat), (.second, s.toNat), (.millisecond, f.toNat)]
  | .dtsUs y mo dy h mi s f =>
    [(.year, y.toNat), (.month, mo.toNat), (.day, dy.toNat),
     (.hour, h.toNat), (.minute, mi.toNat), (.second, s.toNat), (.microsecond, f.toNat)]
  | .dtsNs y mo dy h mi s f =>
    [(.year, y.toNat), (.month, mo.toNat), (.day, dy.toNat),
     (.hour, h.toNat), (.minute, mi.toNat), (.second, s.toNat), (.nanosecond, f.toNat)]
  | .dtszMs y mo dy h mi s z f =>
    [(.year, y.toNat), (.month, mo.toNat), (.day, dy.toNat), (.hour, h.toNat),
     (.minute, mi.toNat), (.second, s.toNat), (.tz, z.toNat), (.millisecond, f.toNat)]
  | .dtszUs y mo dy h mi s z f =>
    [(.year, y.toNat), (.month, mo.toNat), (.day, dy.toNat), (.hour, h.toNat),
     (.minute, mi.toNat), (.second, s.toNat), (.tz, z.toNat), (.microsecond, f.toNat)]
  | .dtszNs y mo dy h mi s z f =>
    [(.year, y.toNat), (.month, mo.toNat), (.day, dy.toNat), (.hour, h.toNat),
     (.minute, mi.toNat), (.second, s.toNat), (.tz, z.toNat), (.nanosecond, f.toNat)]
  | .reserved1010001x _ | .reserved101001xx _ | .reserved10101xxx _ | .reserved1011xxxx _ => []

/-- The layout of an instruction; a reserved row has none (R66: "no layout, no length"). -/
def Instr.lid : Instr → Option Lid
  | .d .. => some .d
  | .t .. => some .t
  | .dt .. => some .dt
  | .dtz .. => some .dtz
  | .dtsNone .. => some .dtsNone
  | .dtsMs .. => some .dtsMs
  | .dtsUs .. => some .dtsUs
  | .dtsNs .. => some .dtsNs
  | .dtszNone .. => some .dtszNone
  | .dtszMs .. => some .dtszMs
  | .dtszUs .. => some .dtszUs
  | .dtszNs .. => some .dtszNs
  | .reserved1010001x _ | .reserved101001xx _ | .reserved10101xxx _ | .reserved1011xxxx _ => none

end Sys2Proof
end

