-- ==== Sys2Proof/WellFormed.lean ====
section
/-! DEFINITION. Which instructions are well formed: the encoded values `ENC` can produce.  The widths
are in the types of the operands; what is left to check is that the tag is not reserved (R66) and
that every wire value is in range or the sentinel (R76, R111).  A term that fails a check still has a
meaning (`InvalidTag`, `OutOfRange`). -/

namespace Sys2Proof

/-- A wire value that is in range or the field's sentinel; the others are the "illegal wire values"
of R111. -/
def FieldDesc.legal (d : FieldDesc) (w : Nat) : Bool :=
  d.sentinel == some w || (d.min ≤ w && w ≤ d.max)

/-- The instruction has a layout and every field holds a legal wire value (R66, R76). -/
def Instr.wellFormed (c : Config) (i : Instr) : Bool :=
  i.lid.isSome && i.operands.all fun p => (c.desc p.1).legal p.2

end Sys2Proof
end

