-- ==== Sys2Proof/Decode.lean ====
section
/-! DEFINITION. From bytes to an instruction and back: the layout table (spec/30_encoding.md R72), the
tag dispatcher (43 R171), the byte order (20 R32; 42 R142; 44 R182), the bit packer and unpacker
(42 R141, 44 R183), the decoder, and after it the encoder. -/

namespace Sys2Proof

/-! ### Fields -/

/-- Field widths, the same in every layout that has the field (R51). -/
def Field.width : Field → Nat
  | .year => 12
  | .month => 4
  | .day => 5
  | .hour => 5
  | .minute => 6
  | .second => 6
  | .millisecond => 10
  | .microsecond => 20
  | .nanosecond => 30
  | .tz => 7

/-- A sub-second field (R9). -/
def Field.isSub : Field → Bool
  | .millisecond | .microsecond | .nanosecond => true
  | _ => false

/-- `mask(n)` of R8. -/
def mask (n : Nat) : Nat := 2 ^ n - 1

/-- The wire value of a field, 0 for a field that is not there (no rule reads one that is not). -/
def Wire.get : Wire → Field → Nat
  | [], _ => 0
  | (g, v) :: ws, f => if g = f then v else Wire.get ws f

/-- The wire value of a field, if the list has it. -/
def Wire.find? : Wire → Field → Option Nat
  | [], _ => none
  | (g, v) :: ws, f => if g = f then some v else Wire.find? ws f

/-! ### layout_table_mux -/

/-- One row of the layout table ROM (R72). -/
structure Row where
  tagValue : Nat
  tagBits : Nat
  hasDate : Bool
  hasTime : Bool
  hasTz : Bool
  sub : Precision
  padBits : Nat
  len : Nat
  deriving DecidableEq, Repr

/-- `layout_table_mux` (R72, R73): the row of a layout.  The DTSZ tags are those of the source's §3
(spec/90_conflicts.md C1). -/
def Lid.row : Lid → Row
  | .d => ⟨0b100, 3, true, false, false, .none, 0, 3⟩
  | .t => ⟨0b1010000, 7, false, true, false, .none, 0, 3⟩
  | .dt => ⟨0b00, 2, true, true, false, .none, 0, 5⟩
  | .dtz => ⟨0b110, 3, true, true, true, .none, 0, 6⟩
  | .dtsNone => ⟨0b0111, 4, true, true, false, .none, 6, 6⟩
  | .dtsMs => ⟨0b0100, 4, true, true, false, .ms, 4, 7⟩
  | .dtsUs => ⟨0b0101, 4, true, true, false, .us, 2, 8⟩
  | .dtsNs => ⟨0b0110, 4, true, true, false, .ns, 0, 9⟩
  | .dtszNone => ⟨0b11111, 5, true, true, true, .none, 6, 7⟩
  | .dtszMs => ⟨0b11100, 5, true, true, true, .ms, 4, 8⟩
  | .dtszUs => ⟨0b11101, 5, true, true, true, .us, 2, 9⟩
  | .dtszNs => ⟨0b11110, 5, true, true, true, .ns, 0, 10⟩

/-- Length in bytes of a layout (R68, R72). -/
def Lid.len (l : Lid) : Nat := l.row.len

/-- The number of a layout at a port (R71). -/
def Lid.toNat : Lid → Nat
  | .d => 0 | .t => 1 | .dt => 2 | .dtz => 3
  | .dtsNone => 4 | .dtsMs => 5 | .dtsUs => 6 | .dtsNs => 7
  | .dtszNone => 8 | .dtszMs => 9 | .dtszUs => 10 | .dtszNs => 11

/-- The layout of a numeric select; 12 and above select nothing (R74, U7). -/
def Lid.ofNat? : Nat → Option Lid
  | 0 => some .d | 1 => some .t | 2 => some .dt | 3 => some .dtz
  | 4 => some .dtsNone | 5 => some .dtsMs | 6 => some .dtsUs | 7 => some .dtsNs
  | 8 => some .dtszNone | 9 => some .dtszMs | 10 => some .dtszUs | 11 => some .dtszNs
  | _ => none

/-- The family of a layout (R71). -/
def Lid.family : Lid → Family
  | .d => .d
  | .t => .t
  | .dt => .dt
  | .dtz => .dtz
  | .dtsNone | .dtsMs | .dtsUs | .dtsNs => .dts
  | .dtszNone | .dtszMs | .dtszUs | .dtszNs => .dtsz

/-- The sub-second field of a precision (R72, R75). -/
def Precision.field : Precision → List Field
  | .none => []
  | .ms => [.millisecond]
  | .us => [.microsecond]
  | .ns => [.nanosecond]

/-- `fields[lid]`, the wire order of a row (R72): date group, time group, tz, sub-second field.
tz stands before the sub-second field, as in the source's §3 (spec/91_not_in_source.md N23). -/
def Lid.fields (l : Lid) : List Field :=
  (if l.row.hasDate then [.year, .month, .day] else []) ++
  (if l.row.hasTime then [.hour, .minute, .second] else []) ++
  (if l.row.hasTz then [.tz] else []) ++
  l.row.sub.field

/-! ### tag_dispatcher -/

/-- The tag dispatcher as the decision tree of R171; `none` is `InvalidTag`.  The one definition that
`TAGLEN`, `DEC` and the stream reader use (R173). -/
def tagDispatch (b : Byte) : Option Lid :=
  if b.extractLsb' 6 2 = 0b00#2 then some .dt
  else if b.extractLsb' 6 2 = 0b01#2 then
    if b.extractLsb' 4 2 = 0b00#2 then some .dtsMs
    else if b.extractLsb' 4 2 = 0b01#2 then some .dtsUs
    else if b.extractLsb' 4 2 = 0b10#2 then some .dtsNs
    else some .dtsNone
  else if b.extractLsb' 5 3 = 0b100#3 then some .d
  else if b.extractLsb' 5 3 = 0b101#3 then
    if b.extractLsb' 1 7 = 0b1010000#7 then some .t else none
  else if b.extractLsb' 5 3 = 0b110#3 then some .dtz
  else
    if b.extractLsb' 3 2 = 0b00#2 then some .dtszMs
    else if b.extractLsb' 3 2 = 0b01#2 then some .dtszUs
    else if b.extractLsb' 3 2 = 0b10#2 then some .dtszNs
    else some .dtszNone

/-- The row of reserved tag space a byte 0 from `0xA2` to `0xBF` falls in (R66, the patterns of
spec/opcode_table.json). -/
def reservedInstr (b : Byte) : Instr :=
  if b &&& 0xF0#8 = 0xB0#8 then .reserved1011xxxx (b.extractLsb' 0 4)
  else if b &&& 0xF8#8 = 0xA8#8 then .reserved10101xxx (b.extractLsb' 0 3)
  else if b &&& 0xFC#8 = 0xA4#8 then .reserved101001xx (b.extractLsb' 0 2)
  else .reserved1010001x (b.extractLsb' 0 1)

/-! ### Byte order -/

/-- `serialize` (R142, R32): the `L` bytes of a wire word, most significant byte first. -/
def serialize (W L : Nat) : List Byte :=
  (List.range L).map fun i => BitVec.ofNat 8 (W >>> (8 * (L - 1 - i)))

/-- `deserialize` (R182, R32): the wire word of a byte string. -/
def deserialize (bs : List Byte) : Nat :=
  bs.foldl (fun W b => (W <<< 8) ||| b.toNat) 0

/-! ### bit_packer and bit_unpacker -/

/-- `pack` (R141): tag, then the fields in wire order, then zero pad bits. -/
def pack (l : Lid) (wire : Wire) : Nat :=
  let acc := (0 <<< l.row.tagBits) ||| l.row.tagValue
  let acc := l.fields.foldl (fun acc f => (acc <<< f.width) ||| wire.get f) acc
  acc <<< l.row.padBits

/-- The walk of `unpack` (R183) over a list of fields, lowest field first. -/
def unpackFields : List Field → Nat → Wire
  | [], _ => []
  | f :: fs, acc => (f, acc &&& mask f.width) :: unpackFields fs (acc >>> f.width)

/-- `unpack` (R183): pad bits dropped unread (R67), then the fields in reverse wire order.  The
result is in wire order. -/
def unpack (l : Lid) (W : Nat) : Wire :=
  (unpackFields l.fields.reverse (W >>> l.row.padBits)).reverse

/-! ### Decoder -/

/-- The instruction of a layout with given wire values. -/
def Instr.ofWire (l : Lid) (w : Wire) : Instr :=
  let y := BitVec.ofNat 12 (w.get .year)
  let mo := BitVec.ofNat 4 (w.get .month)
  let d := BitVec.ofNat 5 (w.get .day)
  let h := BitVec.ofNat 5 (w.get .hour)
  let mi := BitVec.ofNat 6 (w.get .minute)
  let s := BitVec.ofNat 6 (w.get .second)
  let z := BitVec.ofNat 7 (w.get .tz)
  let ms := BitVec.ofNat 10 (w.get .millisecond)
  let us := BitVec.ofNat 20 (w.get .microsecond)
  let ns := BitVec.ofNat 30 (w.get .nanosecond)
  match l with
  | .d => .d y mo d
  | .t => .t h mi s
  | .dt => .dt y mo d h mi s
  | .dtz => .dtz y mo d h mi s z
  | .dtsNone => .dtsNone y mo d h mi s
  | .dtsMs => .dtsMs y mo d h mi s ms
  | .dtsUs => .dtsUs y mo d h mi s us
  | .dtsNs => .dtsNs y mo d h mi s ns
  | .dtszNone => .dtszNone y mo d h mi s z
  | .dtszMs => .dtszMs y mo d h mi s z ms
  | .dtszUs => .dtszUs y mo d h mi s z us
  | .dtszNs => .dtszNs y mo d h mi s z ns

/-- The instruction a tag byte alone stands for: the layout it selects, the fields that are not there
read as zero (`TAGLEN` has no other byte, R19), or the reserved row. -/
def Instr.ofTag (b : Byte) : Instr :=
  match tagDispatch b with
  | some l => .ofWire l []
  | none => reservedInstr b

/-- Why a byte string holds no value at its head. -/
inductive DecodeError where
  /-- No byte at all: nothing to dispatch on (R181). -/
  | empty
  /-- Fewer bytes than the layout its byte 0 selects is long (R181). -/
  | short (l : Lid)
  deriving DecidableEq, Repr

/-- Reads one value from the head of a byte string and gives the rest.  The length comes from byte 0
alone (R68); a reserved byte 0 is an instruction of its own, one byte long (R66). -/
def decode : List Byte → Except DecodeError (Instr × List Byte)
  | [] => .error .empty
  | b :: bs =>
    match tagDispatch b with
    | none => .ok (reservedInstr b, bs)
    | some l =>
      if (b :: bs).length < l.len then .error (.short l)
      else .ok (.ofWire l (unpack l (deserialize ((b :: bs).take l.len))), (b :: bs).drop l.len)

/-- The bytes of a word of spec/opcode_table.json: its row's bits are one number, bit 0 the least
significant bit of the last byte (R7), so the bytes are the number's, most significant first; zero
bytes follow up to the longest value.  notes/assumptions/24.md. -/
def tableBytes (nbits w : Nat) : List Byte :=
  (serialize w (nbits / 8) ++ List.replicate 10 0#8).take 10

/-- The instruction the decoder reads from a word of the opcode table. -/
def decodeTableWord (nbits w : Nat) : Option Instr :=
  match decode (tableBytes nbits w) with
  | .ok (i, _) => some i
  | .error _ => none

/-! ### Encoder -/

/-- Length in bytes of an instruction: its layout's (R72), or the one byte of a reserved row. -/
def Instr.length (i : Instr) : Nat :=
  match i.lid with
  | some l => l.len
  | none => 1

/-- Byte 0 of a reserved row (R66); `encode` reads it for no other. -/
def Instr.reservedByte : Instr → Byte
  | .reserved1010001x x => 0b1010001#7 ++ x
  | .reserved101001xx x => 0b101001#6 ++ x
  | .reserved10101xxx x => 0b10101#5 ++ x
  | .reserved1011xxxx x => 0b1011#4 ++ x
  | .d .. | .t .. | .dt .. | .dtz .. | .dtsNone .. | .dtsMs .. | .dtsUs .. | .dtsNs ..
  | .dtszNone .. | .dtszMs .. | .dtszUs .. | .dtszNs .. => 0#8

/-- The bytes of an instruction: the wire word of R50 (tag, fields, zero pad), serialized. -/
def encode (i : Instr) : List Byte :=
  match i.lid with
  | some l => serialize (pack l i.operands) l.len
  | none => [i.reservedByte]

end Sys2Proof
end

