-- ==== Sys2Proof/Machine/State.lean ====
section
/-! DEFINITION. The state: the ports of spec/10_state.md R16 to R19, the stream reader's source and
cursor (spec/20_memory.md R40), and what the last step put on the outputs.  The codec itself keeps
nothing between operations (R11); its layout tables are constants (R20).  Also the reasons a step can
stop, and the state after reset (R23, R250). -/

namespace Sys2Proof.Machine

/-- A byte space in canonical form: addresses strictly rising, no entry equal to 00, which is what an
unlisted address reads as (`Memory.wf`; notes/assumptions/5.md). -/
abbrev Memory := List Host.Cell

/-- What the caller starts: one of the three operations of the codec (R10), the stream reader's
`decode_from_stream` (R41), or nothing.  notes/assumptions/1.md. -/
inductive Op where
  | idle | enc | taglen | dec | streamDec
  deriving DecidableEq, Repr

/-- The ten input slots of `ENC` (R13).  An absent slot has no value (R12); values are mathematical
integers (R135, spec/92_eei_decisions.md D2; notes/assumptions/8.md). -/
structure Slots where
  year : Option Int := none
  month : Option Int := none
  day : Option Int := none
  hour : Option Int := none
  minute : Option Int := none
  second : Option Int := none
  millisecond : Option Int := none
  microsecond : Option Int := none
  nanosecond : Option Int := none
  tzOffset : Option Int := none
  deriving DecidableEq, Repr

/-- The twelve result slots of `DEC`, the document's Value record (R24). -/
structure Record where
  year : Option Nat := none
  month : Option Nat := none
  day : Option Nat := none
  hour : Option Nat := none
  minute : Option Nat := none
  second : Option Nat := none
  millisecond : Option Nat := none
  microsecond : Option Nat := none
  nanosecond : Option Nat := none
  tzOffset : Option Int := none
  tzHour : Option Nat := none
  tzMinute : Option Nat := none
  deriving DecidableEq, Repr

/-- The five error kinds, a closed set (R220), with the payload of `OutOfRange` (R229). -/
inductive ErrorKind where
  /-- `ENC`: the family name is not in the closed set (R221). -/
  | unsupportedType
  /-- `ENC` and `DEC`: a field value is outside its bounds (R222). -/
  | outOfRange (field : Field) (value min max : Int)
  /-- `DEC`: the buffer's length is not the one its tag implies (R223). -/
  | invalidLength
  /-- `TAGLEN` and `DEC`: byte 0 is in reserved tag space (R224). -/
  | invalidTag
  /-- The stream reader: the stream ended inside a value (R225). -/
  | shortRead
  deriving DecidableEq, Repr

/-- All outputs of a step: the result type "value or error" of R226 and D19, an error carrying no data
result.  The single ports of R16 are views of it (Machine/Flags.lean). -/
inductive Output where
  /-- No operation completed in this step: no output port is a value (R23; notes/assumptions/2.md). -/
  | noValue
  /-- `ENC` (R17): the layout and the ten bytes of `enc_bytes`. -/
  | encoded (lid : Lid) (buf : Memory)
  /-- `TAGLEN` (R19). -/
  | tagged (lid : Lid)
  /-- `DEC` (R18). -/
  | decoded (lid : Lid) (value : Record)
  /-- An error (R226). -/
  | failed (e : ErrorKind)
  deriving DecidableEq, Repr

/-- The machine's state. -/
structure State where
  /-- the operation the caller starts (R10, R255) -/
  op : Op
  /-- `enc_vreq` (R16) -/
  encVreq : BitVec 4
  /-- the ten input slots of `ENC` (R13) -/
  slots : Slots
  /-- `dec_len` (R18), a natural number (D18) -/
  decLen : Nat
  /-- `dec_bytes[0..9]` (R18) -/
  decBytes : Memory
  /-- `tag_byte` (R19) -/
  tagByte : Byte
  /-- the bytes of the stream reader's source, by position (R30, R40) -/
  stream : Memory
  /-- how many bytes the source has in all (R40); an unbounded natural number (DESIGN CHOICE, no width is stated:
  notes/assumptions/30.md) -/
  streamLen : Nat
  /-- the stream cursor (R14, R42), a non-negative position whose "width is not stated" (R30): an unbounded natural
  number that never wraps (DESIGN CHOICE, notes/assumptions/30.md) -/
  cursor : Nat
  /-- the model's own field: free values drawn so far (notes/assumptions/7.md) -/
  draws : Nat
  /-- the outputs of the step just taken (R16, R226) -/
  out : Output
  deriving DecidableEq, Repr

/-- Faults: none.  The spec describes every error's delivery (R226), so an error is a next state, and
no input makes an operation hang or stop (R253).  notes/assumptions/20.md. -/
inductive Fault
  deriving DecidableEq, Repr

/-- Refusals. -/
inductive Refusal where
  /-- Raised by an arm of `exec` for an instruction that has no meaning yet (there is none left).
  Safe: the machine stops. -/
  | notModelled (mnemonic : String)
  /-- Raised by the meaning of a reserved row asked to ENCODE: reserved tag space has no layout (R66),
  as a select of 12 to 15 has none (R74, U7 "refuse").  No step asks it: `ENC` selects one of the
  twelve layouts (R95).  Safe: the machine stops.  notes/assumptions/17.md. -/
  | noLayout
  deriving DecidableEq, Repr

/-- The machine right after reset.  The codec has nothing to reset (R250) and no output before the
first operation (R23); the values of the ports are the model's choice (notes/assumptions/3.md). -/
def State.reset : State where
  op := .idle
  encVreq := 0
  slots := {}
  decLen := 0
  decBytes := []
  tagByte := 0
  stream := []
  streamLen := 0
  cursor := 0
  draws := 0
  out := .noValue

end Sys2Proof.Machine
end

