-- ==== Sys2Proof/Machine/Ops.lean ====
section
/-! DEFINITION. The named operations: bytes of the two byte spaces (spec/20_memory.md R30, R31, R40),
completing an operation with a result, and ending one with an error (spec/60_exceptions.md R226). -/

namespace Sys2Proof.Machine

/-! ### Byte spaces -/

/-- `BufRead` (R31): one byte, no side effect.  An unlisted address reads as 00. -/
def Memory.read : Memory → Nat → Byte
  | [], _ => 0#8
  | (a', b) :: m, a => if a = a' then b else Memory.read m a

/-- `BufWrite` (R31): sets one byte, keeping the canonical form. -/
def Memory.write : Memory → Nat → Byte → Memory
  | [], a, b => if b = 0#8 then [] else [(a, b)]
  | (a', b') :: m, a, b =>
    if a < a' then (if b = 0#8 then (a', b') :: m else (a, b) :: (a', b') :: m)
    else if a = a' then (if b = 0#8 then m else (a, b) :: m)
    else (a', b') :: Memory.write m a b

/-- Every listed address is above `a`, addresses rise strictly and no listed byte is 00. -/
def Memory.wfFrom (a : Nat) : Memory → Bool
  | [] => true
  | (a', b) :: m => decide (a ≤ a') && (b != 0#8) && Memory.wfFrom (a' + 1) m

/-- The canonical form. -/
def Memory.wf (m : Memory) : Bool := Memory.wfFrom 0 m

/-- No address at or above `n` is listed: the buffer has `n` bytes. -/
def Memory.below (n : Nat) (m : Memory) : Bool := m.all fun c => decide (c.1 < n)

/-- `n` bytes from address `a` up. -/
def Memory.readBytes (m : Memory) (a n : Nat) : List Byte :=
  (List.range n).map fun i => m.read (a + i)

/-- Bytes written from address `a` up, in rising order (R142). -/
def Memory.writeBytes (m : Memory) (a : Nat) : List Byte → Memory
  | [] => m
  | b :: bs => Memory.writeBytes (m.write a b) (a + 1) bs

/-- A value buffer at a ten-byte port: the value, then zero filler (R17, R142, D23). -/
def portBuffer (bs : List Byte) : Memory :=
  Memory.writeBytes [] 0 (bs ++ List.replicate (10 - bs.length) 0#8)

/-- A read of `n` bytes at position `pos` of a source that has `len` bytes: the next `n`, or fewer if
it is exhausted (R40). -/
def streamRead (src : Memory) (len pos n : Nat) : List Byte :=
  src.readBytes pos (min n (len - pos))

/-! ### Completing an operation -/

/-- The outputs of a step; no stream byte changes (R11, R31).  That the input ports, `op` included, hold
after the step what they held before it is the model's choice, DESIGN CHOICE (R255 says the caller presents
nothing between operations, D1 gives no handshake): the next step runs the same operation again unless something
outside the machine changes them.  notes/assumptions/29.md. -/
def State.withOut (s : State) (o : Output) : State := { s with out := o }

/-- The stream reader moves the cursor (R42), which has no width and never wraps (notes/assumptions/30.md). -/
def State.withCursor (s : State) (n : Nat) : State := { s with cursor := n }

/-- One more free value drawn (notes/assumptions/7.md). -/
def State.withDraws (s : State) (n : Nat) : State := { s with draws := n }

/-- `raise` (R226): the operation ends with the error on its outputs and no data result.  Nothing is
saved, no mode changes, and there is nothing to return from (R231). -/
def State.raise (s : State) (e : ErrorKind) : State := s.withOut (.failed e)

/-- The stream cursor after a `decode_from_stream` (R42, R43): past the value on success; on failure
any value not less than where it stood (U6), a free value. -/
def settleCursor (s : State) : State :=
  match s.out with
  | .decoded l _ => s.withCursor (s.cursor + l.len)
  | _ => (s.withCursor (s.cursor + Config.freeCursorAdvance s.draws)).withDraws (s.draws + 1)

/-- What the stream reader adds to an operation it issued; nothing for the others. -/
def retire (s : State) : State :=
  match s.op with
  | .streamDec => settleCursor s
  | _ => s

end Sys2Proof.Machine
end

