-- ==== Sys2Proof/Machine/Operands.lean ====
section
/-! DEFINITION. Operands: the input and result slots by field (spec/10_state.md R13, R24), the field
descriptors' values (spec/41_field_codec.md R111), and the conversions between user values and wire
values in both directions (R112 to R116, R120 to R125). -/

namespace Sys2Proof.Machine

/-- The values this spec decides for the parameters of R5, and the descriptor table of R111.  Of the
ranges and sentinels the document gives the year's only; notes/assumptions/13.md. -/
def codecConfig : Config where
  year := ⟨0, 4094, some 4095⟩
  month := ⟨0, 11, some 15⟩
  day := ⟨0, 30, some 31⟩
  hour := ⟨0, 23, some 31⟩
  minute := ⟨0, 59, some 63⟩
  second := ⟨0, 60, some 63⟩
  millisecond := ⟨0, 999, none⟩
  microsecond := ⟨0, 999999, none⟩
  nanosecond := ⟨0, 999999999, none⟩
  tz := ⟨0, 125, some 127⟩
  tzStep := 15
  tzBias := 64
  inW := 32
  lenW := 8

/-- The ten fields in the canonical order of R13. -/
def canonicalFields : List Field :=
  [.year, .month, .day, .hour, .minute, .second, .millisecond, .microsecond, .nanosecond, .tz]

/-- The input slot of a field (R13). -/
def Slots.get (s : Slots) : Field → Option Int
  | .year => s.year
  | .month => s.month
  | .day => s.day
  | .hour => s.hour
  | .minute => s.minute
  | .second => s.second
  | .millisecond => s.millisecond
  | .microsecond => s.microsecond
  | .nanosecond => s.nanosecond
  | .tz => s.tzOffset

/-- The present bits `F.p` (R12). -/
def Slots.present (s : Slots) (f : Field) : Bool := (s.get f).isSome

/-- The result slot of a field (R24), as an integer. -/
def Record.get (r : Record) : Field → Option Int
  | .year => r.year.map Int.ofNat
  | .month => r.month.map Int.ofNat
  | .day => r.day.map Int.ofNat
  | .hour => r.hour.map Int.ofNat
  | .minute => r.minute.map Int.ofNat
  | .second => r.second.map Int.ofNat
  | .millisecond => r.millisecond.map Int.ofNat
  | .microsecond => r.microsecond.map Int.ofNat
  | .nanosecond => r.nanosecond.map Int.ofNat
  | .tz => r.tzOffset

/-! ### Encode direction -/

/-- What is subtracted to make a user value 0-based (R112). -/
def userBase : Field → Int
  | .month | .day => 1
  | _ => 0

/-- Least timezone offset, in minutes: `o_min` of R115. -/
def tzMinOffset (c : Config) : Int := ((c.tz.min : Int) - c.tzBias) * c.tzStep

/-- Greatest timezone offset, in minutes: `o_max` of R115. -/
def tzMaxOffset (c : Config) : Int := ((c.tz.max : Int) - c.tzBias) * c.tzStep

/-- The check of one present slot: `v` after 0-basing is within the bounds of its field (R112, R113); a
timezone offset is within its span and a multiple of the step (R115). -/
def slotOk (c : Config) : Field → Int → Bool
  | .tz, v => decide (tzMinOffset c ≤ v) && decide (v ≤ tzMaxOffset c) && v % c.tzStep == 0
  | f, v => decide (((c.desc f).min : Int) ≤ v - userBase f) && decide (v - userBase f ≤ (c.desc f).max)

/-- What `ENC` reports of a slot that fails its check (R229). -/
def slotRangeError (c : Config) : Field → Int → ErrorKind
  | .tz, v => .outOfRange .tz v (tzMinOffset c) (tzMaxOffset c)
  | f, v => .outOfRange f (v - userBase f) (c.desc f).min (c.desc f).max

/-- The error of one present slot, if it has one (R113, R115). -/
def slotError (c : Config) (f : Field) (v : Int) : Option ErrorKind :=
  if slotOk c f v then none else some (slotRangeError c f v)

/-- The wire value of a present slot that passed its check (R112, R115, R116). -/
def toWire (c : Config) (f : Field) (v : Int) : Nat :=
  match f with
  | .tz => (v / c.tzStep + c.tzBias).toNat
  | f => (v - userBase f).toNat

/-- The first slot, in canonical order, that fails its check (R119 step 1, R227). -/
def firstSlotError (c : Config) (s : Slots) : List Field → Option ErrorKind
  | [] => none
  | f :: fs =>
    match (s.get f).bind (slotError c f) with
    | some e => some e
    | none => firstSlotError c s fs

/-- The wire value of a field of the layout: the slot's, or the sentinel if it is absent (R114).  A
sub-second field of the selected layout always has its slot (R114), so the 0 stands for nothing
(notes/assumptions/23.md). -/
def fieldWire (c : Config) (s : Slots) (f : Field) : Nat :=
  match s.get f with
  | some v => toWire c f v
  | none => (c.desc f).sentinel.getD 0

/-- `field_codec` (R119). -/
def fieldCodec (c : Config) (s : Slots) (l : Lid) : Except ErrorKind Wire :=
  match firstSlotError c s canonicalFields with
  | some e => .error e
  | none => .ok (l.fields.map fun f => (f, fieldWire c s f))

/-! ### Decode direction -/

/-- The re-check of one wire value, with its error: the sentinel and the values in range pass (R120,
R121). -/
def wireError (c : Config) (f : Field) (w : Nat) : Option ErrorKind :=
  if (c.desc f).legal w then none
  else some (.outOfRange f w (c.desc f).min (c.desc f).max)

/-- The first wire value of a list that fails its re-check. -/
def firstWireError (c : Config) : Wire → Option ErrorKind
  | [] => none
  | (f, w) :: ws =>
    match wireError c f w with
    | some e => some e
    | none => firstWireError c ws

/-- A settled field: absent if the layout does not have it or it holds the sentinel, else present with
its wire value (R120, R197). -/
def settled (c : Config) (ws : Wire) (f : Field) : Option Nat :=
  (ws.find? f).bind fun w => if (c.desc f).sentinel == some w then none else some w

/-- The timezone offset of a wire value (R123). -/
def tzOffsetOf (c : Config) (w : Nat) : Int := ((w : Int) - c.tzBias) * c.tzStep

/-- The three sub-second results, millisecond, microsecond, nanosecond (R125). -/
def subSeconds (p : Precision) (c : Config) (ws : Wire) : Option Nat × Option Nat × Option Nat :=
  match p with
  | .none => (none, none, none)
  | .ms =>
    let w := settled c ws .millisecond
    (w, w.map (· * 1000), w.map (· * 1000000))
  | .us =>
    let w := settled c ws .microsecond
    (w.map (· / 1000), w, w.map (· * 1000))
  | .ns =>
    let w := settled c ws .nanosecond
    (w.map (· / 1000000), w.map (· / 1000), w)

/-- The record of settled fields (R197, R122 to R125). -/
def recordOf (c : Config) (p : Precision) (ws : Wire) : Record where
  year := settled c ws .year
  month := (settled c ws .month).map (· + 1)
  day := (settled c ws .day).map (· + 1)
  hour := settled c ws .hour
  minute := settled c ws .minute
  second := settled c ws .second
  millisecond := (subSeconds p c ws).1
  microsecond := (subSeconds p c ws).2.1
  nanosecond := (subSeconds p c ws).2.2
  tzOffset := (settled c ws .tz).map (tzOffsetOf c)
  tzHour := (settled c ws .tz).map fun w => (tzOffsetOf c w).natAbs / 60
  tzMinute := (settled c ws .tz).map fun w => (tzOffsetOf c w).natAbs % 60

/-- `field_codec_inverse` (R197): the fields are checked in reverse wire order, then settled.
`ws` is in wire order. -/
def inverseCodec (c : Config) (l : Lid) (ws : Wire) : Except ErrorKind Record :=
  match firstWireError c ws.reverse with
  | some e => .error e
  | none => .ok (recordOf c l.row.sub ws)

end Sys2Proof.Machine
end

