-- ==== Sys2Proof/Machine/Selector.lean ====
section
/-! DEFINITION. The variant selector, first stage of `ENC` (spec/40_variant_selector.md): from the
requested family and the present bits of the slots to a layout.  It never looks at a value (R90). -/

namespace Sys2Proof.Machine

/-- The family that `enc_vreq` names: 1 to 6 (R91); 0 names none, 7 to 15 are outside the set. -/
def explicitFamily (vreq : BitVec 4) : Option Family :=
  match vreq.toNat with
  | 1 => some .d
  | 2 => some .t
  | 3 => some .dt
  | 4 => some .dtz
  | 5 => some .dts
  | 6 => some .dtsz
  | _ => none

/-- `has_d` (R90). -/
def hasDate (p : Field → Bool) : Bool := p .year || p .month || p .day

/-- `has_t` (R90). -/
def hasTime (p : Field → Bool) : Bool := p .hour || p .minute || p .second

/-- `has_s` (R90). -/
def hasSub (p : Field → Bool) : Bool := p .millisecond || p .microsecond || p .nanosecond

/-- The inferred family (R92). -/
def inferFamily (p : Field → Bool) : Family :=
  if hasSub p && p .tz then .dtsz
  else if hasSub p then .dts
  else if p .tz then .dtz
  else if hasDate p && hasTime p then .dt
  else if hasDate p then .d
  else if hasTime p then .t
  else .d

/-- The precision: the most precise sub-second slot that is present (R93). -/
def precisionOf (p : Field → Bool) : Precision :=
  if p .nanosecond then .ns
  else if p .microsecond then .us
  else if p .millisecond then .ms
  else .none

/-- The layout of a family and a precision (R94, R95). -/
def layoutOf : Family → Precision → Lid
  | .d, _ => .d
  | .t, _ => .t
  | .dt, _ => .dt
  | .dtz, _ => .dtz
  | .dts, .none => .dtsNone
  | .dts, .ms => .dtsMs
  | .dts, .us => .dtsUs
  | .dts, .ns => .dtsNs
  | .dtsz, .none => .dtszNone
  | .dtsz, .ms => .dtszMs
  | .dtsz, .us => .dtszUs
  | .dtsz, .ns => .dtszNs

/-- `select` (R95): an explicit family is used exactly as asked (R96). -/
def select (vreq : BitVec 4) (p : Field → Bool) : Except ErrorKind Lid :=
  if 7 ≤ vreq.toNat then .error .unsupportedType
  else .ok (layoutOf ((explicitFamily vreq).getD (inferFamily p)) (precisionOf p))

end Sys2Proof.Machine
end

