-- ==== Sys2Proof/Machine/Codec.lean ====
section
/-! DEFINITION. The three operations as pure functions of their inputs and of the parameters, as their
rules write them: `ENC` (spec/42_encoder.md R140), `TAGLEN` (43 R170), `DEC` (44 R180).  The machine
runs them through its instructions; these are the functions its steps are held against, over every
`Config`. -/

namespace Sys2Proof.Machine

/-- `ENC` (R140): the layout and the bytes, or the first error (R227). -/
def encOp (c : Config) (vreq : BitVec 4) (slots : Slots) : Except ErrorKind (Lid × List Byte) :=
  match select vreq slots.present with
  | .error e => .error e
  | .ok l =>
    match fieldCodec c slots l with
    | .error e => .error e
    | .ok wire => .ok (l, serialize (pack l wire) l.len)

/-- `TAGLEN` (R170): the layout and the length. -/
def taglenOp (b : Byte) : Except ErrorKind (Lid × Nat) :=
  match tagDispatch b with
  | none => .error .invalidTag
  | some l => .ok (l, l.len)

/-- `DEC` (R180): the layout and the record, or the first error (R228). -/
def decOp (c : Config) (len : Nat) (buf : Memory) : Except ErrorKind (Lid × Record) :=
  if len = 0 then .error .invalidLength
  else
    match taglenOp (buf.read 0) with
    | .error e => .error e
    | .ok (l, L) =>
      if len ≠ L then .error .invalidLength
      else
        match inverseCodec c l (unpack l (deserialize (buf.readBytes 0 L))) with
        | .error e => .error e
        | .ok r => .ok (l, r)

end Sys2Proof.Machine
end

