-- ==== Sys2Proof/Machine/Layout.lean ====
section
/-! DEFINITION. What every layout does with its wire values, said once; the operation in progress
chooses (spec/10_state.md R10).  Each instruction's own meaning is one line over it. -/

namespace Sys2Proof.Machine

/-- A layout with its wire values, in wire order.
`ENC`: pack and serialize (R141, R142).  `TAGLEN`: layout and length (R170).  `DEC`, for a caller or
for the stream reader: the inverse codec, a record or `OutOfRange` (R197, R121).
With no operation in progress nothing is produced. -/
def runLayout (l : Lid) (wire : Wire) (s : State) : Host.Outcome State Fault Refusal :=
  match s.op with
  | .idle => .next (s.withOut .noValue)
  | .enc => .next (s.withOut (.encoded l (portBuffer (serialize (pack l wire) l.len))))
  | .taglen => .next (s.withOut (.tagged l))
  | .dec | .streamDec =>
    match inverseCodec codecConfig l wire with
    | .error e => .next (s.raise e)
    | .ok r => .next (s.withOut (.decoded l r))

/-- Reserved tag space (R66, R172): `TAGLEN` and `DEC` end with `InvalidTag`; there is no layout to
encode. -/
def runReserved (s : State) : Host.Outcome State Fault Refusal :=
  match s.op with
  | .idle => .next (s.withOut .noValue)
  | .enc => .refused .noLayout
  | .taglen | .dec | .streamDec => .next (s.raise .invalidTag)

end Sys2Proof.Machine
end

