-- ==== Sys2Proof/Machine/DateTime.lean ====
section
/-! DEFINITION. The layouts without sub-second field: D, T, DT, DTZ (spec/30_encoding.md R52 to R55). -/

namespace Sys2Proof.Machine

/-- Layout D (format R52): encode R144, decode R184, dispatch R171. -/
def execD (year : BitVec 12) (month : BitVec 4) (day : BitVec 5)
    (s : State) : Host.Outcome State Fault Refusal :=
  runLayout .d
    [(.year, year.toNat), (.month, month.toNat), (.day, day.toNat)] s

/-- Layout T (format R53): encode R145, decode R185, dispatch R171. -/
def execT (hour : BitVec 5) (minute : BitVec 6) (second : BitVec 6)
    (s : State) : Host.Outcome State Fault Refusal :=
  runLayout .t
    [(.hour, hour.toNat), (.minute, minute.toNat), (.second, second.toNat)] s

/-- Layout DT (format R54): encode R146, decode R186, dispatch R171. -/
def execDT (year : BitVec 12) (month : BitVec 4) (day : BitVec 5) (hour : BitVec 5)
    (minute : BitVec 6) (second : BitVec 6)
    (s : State) : Host.Outcome State Fault Refusal :=
  runLayout .dt
    [(.year, year.toNat), (.month, month.toNat), (.day, day.toNat), (.hour, hour.toNat),
     (.minute, minute.toNat), (.second, second.toNat)] s

/-- Layout DTZ (format R55): encode R147, decode R187, dispatch R171. -/
def execDTZ (year : BitVec 12) (month : BitVec 4) (day : BitVec 5) (hour : BitVec 5)
    (minute : BitVec 6) (second : BitVec 6) (tz : BitVec 7)
    (s : State) : Host.Outcome State Fault Refusal :=
  runLayout .dtz
    [(.year, year.toNat), (.month, month.toNat), (.day, day.toNat), (.hour, hour.toNat),
     (.minute, minute.toNat), (.second, second.toNat), (.tz, tz.toNat)] s

end Sys2Proof.Machine
end

