-- ==== Sys2Proof/Machine/Reserved.lean ====
section
/-! DEFINITION. Reserved tag space, byte 0 from `0xA2` to `0xBF` (spec/30_encoding.md R66). -/

namespace Sys2Proof.Machine

/-- Byte 0 `1010001x`: `InvalidTag`, whatever the don't-care bits (R66, R172). -/
def execReserved1010001x (_x : BitVec 1) (s : State) : Host.Outcome State Fault Refusal :=
  runReserved s

/-- Byte 0 `101001xx`: `InvalidTag`, whatever the don't-care bits (R66, R172). -/
def execReserved101001xx (_x : BitVec 2) (s : State) : Host.Outcome State Fault Refusal :=
  runReserved s

/-- Byte 0 `10101xxx`: `InvalidTag`, whatever the don't-care bits (R66, R172). -/
def execReserved10101xxx (_x : BitVec 3) (s : State) : Host.Outcome State Fault Refusal :=
  runReserved s

/-- Byte 0 `1011xxxx`: `InvalidTag`, whatever the don't-care bits (R66, R172). -/
def execReserved1011xxxx (_x : BitVec 4) (s : State) : Host.Outcome State Fault Refusal :=
  runReserved s

end Sys2Proof.Machine
end

