-- ==== Sys2Proof/Machine/SubSecond.lean ====
section
/-! DEFINITION. The DTS family, one layout per precision (spec/30_encoding.md R56 to R59, R75). -/

namespace Sys2Proof.Machine

/-- Layout DTS-none (format R56): encode R148, decode R188, dispatch R171. -/
def execDtsNone (year : BitVec 12) (month : BitVec 4) (day : BitVec 5) (hour : BitVec 5)
    (minute : BitVec 6) (second : BitVec 6)
    (s : State) : Host.Outcome State Fault Refusal :=
  runLayout .dtsNone
    [(.year, year.toNat), (.month, month.toNat), (.day, day.toNat), (.hour, hour.toNat),
     (.minute, minute.toNat), (.second, second.toNat)] s

/-- Layout DTS-ms (format R57): encode R149, decode R189, dispatch R171. -/
def execDtsMs (year : BitVec 12) (month : BitVec 4) (day : BitVec 5) (hour : BitVec 5)
    (minute : BitVec 6) (second : BitVec 6) (millisecond : BitVec 10)
    (s : State) : Host.Outcome State Fault Refusal :=
  runLayout .dtsMs
    [(.year, year.toNat), (.month, month.toNat), (.day, day.toNat), (.hour, hour.toNat),
     (.minute, minute.toNat), (.second, second.toNat), (.millisecond, millisecond.toNat)] s

/-- Layout DTS-us (format R58): encode R150, decode R190, dispatch R171. -/
def execDtsUs (year : BitVec 12) (month : BitVec 4) (day : BitVec 5) (hour : BitVec 5)
    (minute : BitVec 6) (second : BitVec 6) (microsecond : BitVec 20)
    (s : State) : Host.Outcome State Fault Refusal :=
  runLayout .dtsUs
    [(.year, year.toNat), (.month, month.toNat), (.day, day.toNat), (.hour, hour.toNat),
     (.minute, minute.toNat), (.second, second.toNat), (.microsecond, microsecond.toNat)] s

/-- Layout DTS-ns (format R59): encode R151, decode R191, dispatch R171. -/
def execDtsNs (year : BitVec 12) (month : BitVec 4) (day : BitVec 5) (hour : BitVec 5)
    (minute : BitVec 6) (second : BitVec 6) (nanosecond : BitVec 30)
    (s : State) : Host.Outcome State Fault Refusal :=
  runLayout .dtsNs
    [(.year, year.toNat), (.month, month.toNat), (.day, day.toNat), (.hour, hour.toNat),
     (.minute, minute.toNat), (.second, second.toNat), (.nanosecond, nanosecond.toNat)] s

end Sys2Proof.Machine
end

