-- ==== Sys2Proof/Machine/SubSecondZone.lean ====
section
/-! DEFINITION. The DTSZ family, one layout per precision, tz before the sub-second field
(spec/30_encoding.md R60 to R63, R75). -/

namespace Sys2Proof.Machine

/-- Layout DTSZ-none (format R60): encode R152, decode R192, dispatch R171. -/
def execDtszNone (year : BitVec 12) (month : BitVec 4) (day : BitVec 5) (hour : BitVec 5)
    (minute : BitVec 6) (second : BitVec 6) (tz : BitVec 7)
    (s : State) : Host.Outcome State Fault Refusal :=
  runLayout .dtszNone
    [(.year, year.toNat), (.month, month.toNat), (.day, day.toNat), (.hour, hour.toNat),
     (.minute, minute.toNat), (.second, second.toNat), (.tz, tz.toNat)] s

/-- Layout DTSZ-ms (format R61): encode R153, decode R193, dispatch R171. -/
def execDtszMs (year : BitVec 12) (month : BitVec 4) (day : BitVec 5) (hour : BitVec 5)
    (minute : BitVec 6) (second : BitVec 6) (tz : BitVec 7) (millisecond : BitVec 10)
    (s : State) : Host.Outcome State Fault Refusal :=
  runLayout .dtszMs
    [(.year, year.toNat), (.month, month.toNat), (.day, day.toNat), (.hour, hour.toNat),
     (.minute, minute.toNat), (.second, second.toNat), (.tz, tz.toNat),
     (.millisecond, millisecond.toNat)] s

/-- Layout DTSZ-us (format R62): encode R154, decode R194, dispatch R171. -/
def execDtszUs (year : BitVec 12) (month : BitVec 4) (day : BitVec 5) (hour : BitVec 5)
    (minute : BitVec 6) (second : BitVec 6) (tz : BitVec 7) (microsecond : BitVec 20)
    (s : State) : Host.Outcome State Fault Refusal :=
  runLayout .dtszUs
    [(.year, year.toNat), (.month, month.toNat), (.day, day.toNat), (.hour, hour.toNat),
     (.minute, minute.toNat), (.second, second.toNat), (.tz, tz.toNat),
     (.microsecond, microsecond.toNat)] s

/-- Layout DTSZ-ns (format R63): encode R155, decode R195, dispatch R171. -/
def execDtszNs (year : BitVec 12) (month : BitVec 4) (day : BitVec 5) (hour : BitVec 5)
    (minute : BitVec 6) (second : BitVec 6) (tz : BitVec 7) (nanosecond : BitVec 30)
    (s : State) : Host.Outcome State Fault Refusal :=
  runLayout .dtszNs
    [(.year, year.toNat), (.month, month.toNat), (.day, day.toNat), (.hour, hour.toNat),
     (.minute, minute.toNat), (.second, second.toNat), (.tz, tz.toNat),
     (.nanosecond, nanosecond.toNat)] s

end Sys2Proof.Machine
end

