-- ==== Sys2Proof/Machine/Dispatch.lean ====
section
/-! DEFINITION. One arm per instruction, each a direct call of the instruction's own meaning. -/

namespace Sys2Proof.Machine

def exec (i : Instr) (s : State) : Host.Outcome State Fault Refusal :=
  match i with
  | .d year month day => Sys2Proof.Machine.execD year month day s
  | .t hour minute second => Sys2Proof.Machine.execT hour minute second s
  | .dt year month day hour minute second => Sys2Proof.Machine.execDT year month day hour minute second s
  | .dtz year month day hour minute second tz => Sys2Proof.Machine.execDTZ year month day hour minute second tz s
  | .dtsNone year month day hour minute second => Sys2Proof.Machine.execDtsNone year month day hour minute second s
  | .dtsMs year month day hour minute second millisecond => Sys2Proof.Machine.execDtsMs year month day hour minute second millisecond s
  | .dtsUs year month day hour minute second microsecond => Sys2Proof.Machine.execDtsUs year month day hour minute second microsecond s
  | .dtsNs year month day hour minute second nanosecond => Sys2Proof.Machine.execDtsNs year month day hour minute second nanosecond s
  | .dtszNone year month day hour minute second tz => Sys2Proof.Machine.execDtszNone year month day hour minute second tz s
  | .dtszMs year month day hour minute second tz millisecond => Sys2Proof.Machine.execDtszMs year month day hour minute second tz millisecond s
  | .dtszUs year month day hour minute second tz microsecond => Sys2Proof.Machine.execDtszUs year month day hour minute second tz microsecond s
  | .dtszNs year month day hour minute second tz nanosecond => Sys2Proof.Machine.execDtszNs year month day hour minute second tz nanosecond s
  | .reserved1010001x x => Sys2Proof.Machine.execReserved1010001x x s
  | .reserved101001xx x => Sys2Proof.Machine.execReserved101001xx x s
  | .reserved10101xxx x => Sys2Proof.Machine.execReserved10101xxx x s
  | .reserved1011xxxx x => Sys2Proof.Machine.execReserved1011xxxx x s

end Sys2Proof.Machine
end

