-- ==== Sys2Proof/Machine/Fetch.lean ====
section
/-! DEFINITION. From what the caller presents to the instruction of the operation in progress: the
front half of each operation.  The block has no program counter (spec/10_state.md R14); an operation
starts when the caller presents its inputs (R10, R255), so this stands where a processor fetches. -/

namespace Sys2Proof.Machine

/-- What an operation comes to before its layout acts. -/
inductive Fetch where
  /-- Nothing was presented. -/
  | nothing
  /-- An error found before the layout acts. -/
  | error (e : ErrorKind)
  /-- The layout and its wire values, or a reserved tag. -/
  | instr (i : Instr)
  deriving DecidableEq, Repr

/-- Front half of `ENC` (R140): variant selector, then field codec, errors in that order (R227). -/
def fetchEnc (s : State) : Fetch :=
  match select s.encVreq s.slots.present with
  | .error e => .error e
  | .ok l =>
    match fieldCodec codecConfig s.slots l with
    | .error e => .error e
    | .ok wire => .instr (.ofWire l wire)

/-- Front half of `DEC` (R180): the codec reads bytes `0 .. min(dec_len, 10) - 1` (R18).  No byte, or
fewer than the tag implies, is `InvalidLength`; a reserved tag comes before the length; more bytes
than the tag implies is `InvalidLength` (R181, R228). -/
def fetchDec (s : State) : Fetch :=
  match decode (s.decBytes.readBytes 0 (min s.decLen 10)) with
  | .error _ => .error .invalidLength
  | .ok (i, _) =>
    match i.lid with
    | none => .instr i
    | some l => if s.decLen = l.len then .instr i else .error .invalidLength

/-- Front half of `decode_from_stream` (R41): one byte, its tag, then exactly the remaining bytes; a
stream that ends early is `ShortRead`. -/
def fetchStream (s : State) : Fetch :=
  match streamRead s.stream s.streamLen s.cursor 1 with
  | [] => .error .shortRead
  | b :: _ =>
    match tagDispatch b with
    | none => .instr (reservedInstr b)
    | some l =>
      match decode (b :: streamRead s.stream s.streamLen (s.cursor + 1) (l.len - 1)) with
      | .error _ => .error .shortRead
      | .ok (i, _) => .instr i

/-- The instruction of the operation the caller presents.  `TAGLEN` has byte 0 only (R19): the wire
values of its instruction are placeholders that its meaning does not read
(notes/assumptions/18.md). -/
def fetch (s : State) : Fetch :=
  match s.op with
  | .idle => .nothing
  | .enc => fetchEnc s
  | .taglen => .instr (.ofTag s.tagByte)
  | .dec => fetchDec s
  | .streamDec => fetchStream s

/-- `dec_len` for a buffer that begins with byte `b`: the length its tag implies, or the one byte of a
reserved tag. -/
def tagLength (b : Byte) : Nat :=
  match tagDispatch b with
  | some l => l.len
  | none => 1

/-- The caller presents the value of an opcode-table word to `DEC`: the bytes, their length, and the
operation (notes/assumptions/4.md). -/
def presentWord (s : State) (nbits w : Nat) : State :=
  let buf : Memory := Memory.writeBytes [] 0 (tableBytes nbits w)
  { s with op := .dec, decBytes := buf, decLen := tagLength (buf.read 0) }

end Sys2Proof.Machine
end

