-- ==== Sys2Proof/Machine/Step.lean ====
section
/-! DEFINITION. One step: one whole operation (spec/10_state.md R10), or nothing if none is presented. -/

namespace Sys2Proof.Machine

/-- One step.  The front half of the operation gives its instruction or an error; the instruction acts;
the stream reader settles its cursor if the operation was its own.  The ports keep their values
(DESIGN CHOICE, notes/assumptions/29.md). -/
def step (s : State) : Host.Outcome State Fault Refusal :=
  match fetch s with
  | .nothing => .next (s.withOut .noValue)
  | .error e => .next (retire (s.raise e))
  | .instr i =>
    match exec i s with
    | .next t => .next (retire t)
    | .fault f => .fault f
    | .refused r => .refused r

/-- The state in which the very next step runs the instruction of an opcode-table word: the caller
presents its bytes to `DEC` (notes/assumptions/4.md). -/
def State.withFetchWord (s : State) (nbits w : Nat) : State := presentWord s nbits w

end Sys2Proof.Machine
end

