-- ==== Sys2Proof/Machine/Flags.lean ====
section
/-! DEFINITION. The codec has no flags (spec/10_state.md R15).  The outcome of an operation is carried
by its own output ports (R16); they are computed here from `State.out`, in the numbers of the ports
(R71, R235).  `none` says that the port is not a value after this step (R16, R23, R226). -/

namespace Sys2Proof.Machine

/-- Error codes of the `err` port (R235). -/
def ErrorKind.code : ErrorKind → BitVec 3
  | .unsupportedType => 1
  | .outOfRange .. => 2
  | .invalidLength => 3
  | .invalidTag => 4
  | .shortRead => 5

/-- Index of a field on the `err_field` port (R13, R16); 9 names tz_offset for `ENC` and the stored tz
field for `DEC`. -/
def fieldIndex : Field → BitVec 4
  | .year => 0
  | .month => 1
  | .day => 2
  | .hour => 3
  | .minute => 4
  | .second => 5
  | .millisecond => 6
  | .microsecond => 7
  | .nanosecond => 8
  | .tz => 9

/-- `ok` (R16). -/
def Output.ok : Output → Option Bool
  | .noValue => none
  | .failed _ => some false
  | .encoded .. | .tagged _ | .decoded .. => some true

/-- `err` (R16, R235): 0 when the operation produced its result. -/
def Output.err : Output → Option (BitVec 3)
  | .noValue => none
  | .failed e => some e.code
  | .encoded .. | .tagged _ | .decoded .. => some 0

/-- `err_field` (R16), a value with `err = 2` only. -/
def Output.errField : Output → Option (BitVec 4)
  | .failed (.outOfRange f _ _ _) => some (fieldIndex f)
  | _ => none

/-- `err_value` (R16, R229), a value with `err = 2` only.  notes/assumptions/9.md. -/
def Output.errValue : Output → Option Int
  | .failed (.outOfRange _ v _ _) => some v
  | _ => none

/-- `err_min` (R16, R229). -/
def Output.errMin : Output → Option Int
  | .failed (.outOfRange _ _ lo _) => some lo
  | _ => none

/-- `err_max` (R16, R229). -/
def Output.errMax : Output → Option Int
  | .failed (.outOfRange _ _ _ hi) => some hi
  | _ => none

/-- The layout of a successful operation. -/
def Output.lid? : Output → Option Lid
  | .encoded l _ | .tagged l | .decoded l _ => some l
  | .noValue | .failed _ => none

/-- `lid` (R16, R71), valid when `ok = 1`. -/
def Output.lidPort (o : Output) : Option (BitVec 4) := o.lid?.map fun l => BitVec.ofNat 4 l.toNat

/-- `len` (R16, R143), valid when `ok = 1`: the length of the layout. -/
def Output.lenPort (o : Output) : Option (BitVec 4) := o.lid?.map fun l => BitVec.ofNat 4 l.len

/-- `enc_bytes[i]` (R17), valid when an `ENC` succeeded. -/
def Output.encByte (o : Output) (i : Fin 10) : Option Byte :=
  match o with
  | .encoded _ buf => some (buf.read i)
  | _ => none

/-- The twelve result slots (R18, R24), valid when a `DEC` succeeded. -/
def Output.record : Output → Option Record
  | .decoded _ r => some r
  | _ => none

end Sys2Proof.Machine
end

