-- ==== Sys2Proof/Safety.lean ====
section
/-! DEFINITION. The terms claims use: which user values are accepted (spec/10_state.md R13), what a
`DEC` result always satisfies (R24), the invariant every step keeps, and the terms in which the rules
of the single layouts are written down a second time, in literal numbers. -/

namespace Sys2Proof

/-- What makes parameters usable: ranges and sentinels fit the widths, a sentinel lies above its range
(R126), the seven fields that can be absent have one and the sub-second fields have none (R114), and
the timezone step is not zero.  The values themselves stay open (R5, D10). -/
structure Config.Valid (c : Config) : Prop where
  max_lt : ∀ f, (c.desc f).max < 2 ^ f.width
  sentinel : ∀ f, f.isSub = false →
    ∃ s, (c.desc f).sentinel = some s ∧ (c.desc f).max < s ∧ s < 2 ^ f.width
  noSentinel : ∀ f, f.isSub = true → (c.desc f).sentinel = none
  step_pos : 0 < c.tzStep

end Sys2Proof

namespace Sys2Proof.Machine

/-- The user range of a field, "accepted without error" (R13); also the values `DEC` can produce (R24). -/
def inUserRange : Field → Int → Bool
  | .year, v => decide (0 ≤ v ∧ v ≤ 4094)
  | .month, v => decide (1 ≤ v ∧ v ≤ 12)
  | .day, v => decide (1 ≤ v ∧ v ≤ 31)
  | .hour, v => decide (0 ≤ v ∧ v ≤ 23)
  | .minute, v => decide (0 ≤ v ∧ v ≤ 59)
  | .second, v => decide (0 ≤ v ∧ v ≤ 60)
  | .millisecond, v => decide (0 ≤ v ∧ v ≤ 999)
  | .microsecond, v => decide (0 ≤ v ∧ v ≤ 999999)
  | .nanosecond, v => decide (0 ≤ v ∧ v ≤ 999999999)
  | .tz, v => decide (-960 ≤ v ∧ v ≤ 915 ∧ v % 15 = 0)

/-- Every present slot is in its user range. -/
def Slots.inRange (s : Slots) : Prop :=
  ∀ f v, s.get f = some v → inUserRange f v = true

/-- The wire bounds of a field (R111), which an `OutOfRange` reports (R229). -/
def wireBounds : Field → Int × Int
  | .year => (0, 4094)
  | .month => (0, 11)
  | .day => (0, 30)
  | .hour => (0, 23)
  | .minute => (0, 59)
  | .second => (0, 60)
  | .millisecond => (0, 999)
  | .microsecond => (0, 999999)
  | .nanosecond => (0, 999999999)
  | .tz => (0, 125)

/-- The payload of the `OutOfRange` that `ENC` raises for a slot (R229): month and day 0-based, the
timezone in minutes. -/
def slotPayload : Field → Int → ErrorKind
  | .tz, v => .outOfRange .tz v (-960) 915
  | .month, v => .outOfRange .month (v - 1) 0 11
  | .day, v => .outOfRange .day (v - 1) 0 30
  | f, v => .outOfRange f v (wireBounds f).1 (wireBounds f).2

/-- The wire value of a slot (R112, R114, R115, R116), in the numbers of R111. -/
def slotWire : Field → Option Int → Int
  | .year, v => v.getD 4095
  | .month, v => (v.map (· - 1)).getD 15
  | .day, v => (v.map (· - 1)).getD 31
  | .hour, v => v.getD 31
  | .minute, v => v.getD 63
  | .second, v => v.getD 63
  | .tz, v => (v.map (· / 15 + 64)).getD 127
  | .millisecond, v | .microsecond, v | .nanosecond, v => v.getD 0

/-- What the document and R24 state of the record a `DEC` gives: every present slot in its range; only
slots of the layout present, the sub-second slots all three or none (R125); the truncation relation
(R125); tz_hour and tz_minute present exactly when tz_offset is, as its magnitude (R124). -/
structure Record.Ok (l : Lid) (r : Record) : Prop where
  range : ∀ f v, r.get f = some v → inUserRange f v = true
  carried : ∀ f, (r.get f).isSome → f.isSub = false → f ∈ l.fields
  subMs : r.millisecond.isSome = decide (l.row.sub ≠ .none)
  subUs : r.millisecond = r.microsecond.map (· / 1000)
  subNs : r.microsecond = r.nanosecond.map (· / 1000)
  tzHour : r.tzHour = r.tzOffset.map fun o => o.natAbs / 60
  tzMinute : r.tzMinute = r.tzOffset.map fun o => o.natAbs % 60

/-- The sub-second results of a layout of precision `p` (R125): the stored one present and the other two
computed from it; all three absent where the layout has none (R197). -/
def Record.subSecondsFollow (r : Record) : Precision → Prop
  | .none => r.millisecond = none ∧ r.microsecond = none ∧ r.nanosecond = none
  | .ms => ∃ w, r.millisecond = some w ∧ r.microsecond = some (w * 1000) ∧
      r.nanosecond = some (w * 1000000)
  | .us => ∃ w, r.microsecond = some w ∧ r.millisecond = some (w / 1000) ∧
      r.nanosecond = some (w * 1000)
  | .ns => ∃ w, r.nanosecond = some w ∧ r.millisecond = some (w / 1000000) ∧
      r.microsecond = some (w / 1000)

/-- What an output always satisfies: an encoded value stands in the bytes of its length and begins with
the tag of its layout (R17, R156 a); a record is `Ok`; the value an `OutOfRange` reports is outside its
bounds, or a timezone offset off the 15-minute grid (R222). -/
def Output.Ok : Output → Prop
  | .noValue | .tagged _ => True
  | .encoded l buf =>
    buf.wf = true ∧ buf.below l.len = true ∧ tagDispatch (buf.read 0) = some l
  | .decoded l r => r.Ok l
  | .failed (.outOfRange f v lo hi) => v < lo ∨ hi < v ∨ (f = .tz ∧ v % 15 ≠ 0)
  | .failed _ => True

/-- The invariant of the machine: both byte spaces in canonical form, the ten-byte port within its ten
bytes (R18, R30), no stream byte past the end of the source (R40), and an output that is `Ok`. -/
structure State.Inv (s : State) : Prop where
  decWf : s.decBytes.wf = true
  decBelow : s.decBytes.below 10 = true
  streamWf : s.stream.wf = true
  streamBelow : s.stream.below s.streamLen = true
  outOk : s.out.Ok

/-- The inputs fit the widths of their ports: `IN_W` bits signed, `LEN_W` bits unsigned (R13, R18). -/
def State.portsFit (c : Config) (s : State) : Prop :=
  (∀ f v, s.slots.get f = some v → -(2 ^ (c.inW - 1) : Int) ≤ v ∧ v < 2 ^ (c.inW - 1)) ∧
  s.decLen < 2 ^ c.lenW

/-- A wire value that is present unless it is the sentinel (R120). -/
def presentUnless (sentinel w : Nat) : Option Nat := if w = sentinel then none else some w

/-- The output of a `DEC` whose fields are examined in the order of the list: each entry is a field, its
wire value, and the first and last illegal wire value of R111; the first illegal one is reported with
the bounds 0 and the value below the first illegal one (R121, R197). -/
def examine : List (Field × Nat × Nat × Nat) → Output → Output
  | [], o => o
  | (f, w, lo, hi) :: rest, o =>
    if lo ≤ w ∧ w ≤ hi then .failed (.outOfRange f w 0 (lo - 1)) else examine rest o

/-- A `DEC` of the buffer `bs` by a caller gives the output `o` and changes nothing else. -/
def decodesTo (bs : List Byte) (o : Output) : Prop :=
  ∀ s : State, s.op = .dec → s.decLen = bs.length → s.decBytes = portBuffer (bs.take 10) →
    step s = .next (s.withOut o)

/-- As many steps as the list has outputs lead from one state to another: each is answered, and the k-th
leaves the k-th output. -/
def stepsTo : List Output → State → State → Prop
  | [], s, t => s = t
  | o :: os, s, t => ∃ u, step s = .next u ∧ u.out = o ∧ stepsTo os u t

/-- The `ENC` of an instruction puts the value `bs` on `enc_bytes` and changes nothing else. -/
def encodesTo (i : Instr) (l : Lid) (bs : List Byte) : Prop :=
  ∀ s : State, s.op = .enc → exec i s = .next (s.withOut (.encoded l (portBuffer bs)))

/-- The value of `enc_vreq` that names a family (R16). -/
def familyRequest : Family → BitVec 4
  | .d => 1
  | .t => 2
  | .dt => 3
  | .dtz => 4
  | .dts => 5
  | .dtsz => 6

/-- The slots that re-encode a record as layout `l` (R198): year to second and tz_offset, and of the
three sub-second slots only the one of the layout's precision. -/
def Record.toSlots (r : Record) (l : Lid) : Slots where
  year := r.get .year
  month := r.get .month
  day := r.get .day
  hour := r.get .hour
  minute := r.get .minute
  second := r.get .second
  millisecond := if l.row.sub = .ms then r.get .millisecond else none
  microsecond := if l.row.sub = .us then r.get .microsecond else none
  nanosecond := if l.row.sub = .ns then r.get .nanosecond else none
  tzOffset := r.get .tz

/-- Present bits from the list of the fields that are present. -/
def presentOnly (fs : List Field) : Field → Bool := fun f => fs.contains f

/-- A layout carries every supplied field; of several sub-second fields the most precise counts (R93). -/
def carriesAll (p : Field → Bool) (l : Lid) : Prop :=
  ∀ f, p f = true → f ∈ l.fields ∨
    (f.isSub = true ∧ ∃ g ∈ l.fields, g.isSub = true ∧ p g = true ∧ fieldIndex f < fieldIndex g)

/-- Two states present the same inputs to the same operation (R11, R17, R18, R19, R41); everything else
in them may differ. -/
def sameInputs (s s' : State) : Prop :=
  s.op = s'.op ∧
  (s.op = .enc → s.encVreq = s'.encVreq ∧ s.slots = s'.slots) ∧
  (s.op = .taglen → s.tagByte = s'.tagByte) ∧
  (s.op = .dec → s.decLen = s'.decLen ∧
    ∀ x, x < min s.decLen 10 → s.decBytes.read x = s'.decBytes.read x) ∧
  (s.op = .streamDec → s.streamLen - s.cursor = s'.streamLen - s'.cursor ∧
    ∀ k, k < s.streamLen - s.cursor → s.stream.read (s.cursor + k) = s'.stream.read (s'.cursor + k))

end Sys2Proof.Machine
end

