-- ==== Sys2Proof/Certificates/Slice0/Obligations.lean ====
section
/-! DEFINITION. The statements for the provers.  Each docstring names the rules of spec/ it formalises;
a clause that rests on a choice of the model names the log entry. -/

open Sys2Proof Sys2Proof.Machine

/-! ### Encoding -/

/-- R50, R68, R141, R183: no bit of an encoding is dropped.  Reading the head of a byte string that begins
with the bytes of an instruction, a reserved row included, gives that instruction, with every operand at
every value, and exactly the bytes after it. -/
def Obligations.DecodeEncodeRoundTrip : Prop :=
  ∀ (i : Instr) (rest : List Byte), decode (encode i ++ rest) = .ok (i, rest)

/-- R67, R198: where the pad bits are zero the bytes an instruction was read from are its encoding: one
meaning a byte string, one byte string a meaning. -/
def Obligations.EncodeDecodeCanonical : Prop :=
  ∀ (bs rest : List Byte) (i : Instr), decode bs = .ok (i, rest) →
    (∀ l, i.lid = some l → deserialize (bs.take l.len) % 2 ^ l.row.padBits = 0) →
    bs = encode i ++ rest

/-- Words written out from the spec's encodings, one per family of the opcode table, decode to the
instructions they stand for (R52, R53, R54, R55, R57, R60, R66; 95_test_vectors.md). -/
def Obligations.SpecWordsDecode : Prop :=
  decode [0x8f#8, 0x7e#8, 0x0e#8] = .ok (.d 1983 0 14, []) ∧
  decode [0xa1#8, 0x26#8, 0x4c#8] = .ok (.t 18 25 12, []) ∧
  decode [0x1e#8, 0xfc#8, 0x1d#8, 0x26#8, 0x4c#8] = .ok (.dt 1983 0 14 18 25 12, []) ∧
  decode [0xcf#8, 0x7e#8, 0x0e#8, 0x93#8, 0x26#8, 0x44#8] =
    .ok (.dtz 1983 0 14 18 25 12 68, []) ∧
  decode [0x47#8, 0xbf#8, 0x07#8, 0x49#8, 0x93#8, 0x07#8, 0xb0#8] =
    .ok (.dtsMs 1983 0 14 18 25 12 123, []) ∧
  decode [0xfb#8, 0xdf#8, 0x83#8, 0xa4#8, 0xc9#8, 0x91#8, 0x00#8] =
    .ok (.dtszNone 1983 0 14 18 25 12 68, []) ∧
  decode [0xb5#8] = .ok (.reserved1011xxxx 5, []) ∧
  decodeTableWord 24 0x8f7e0e = some (.d 1983 0 14)

/-- R64: the complete map of the 256 values of byte 0, row by row: match and mask, layout, `lid`, bytes. -/
def Obligations.TagByteSelectsLayout : Prop :=
  (∀ b : Byte,
    (tagDispatch b = some .dt ↔ b &&& 0xC0#8 = 0x00#8) ∧
    (tagDispatch b = some .dtsMs ↔ b &&& 0xF0#8 = 0x40#8) ∧
    (tagDispatch b = some .dtsUs ↔ b &&& 0xF0#8 = 0x50#8) ∧
    (tagDispatch b = some .dtsNs ↔ b &&& 0xF0#8 = 0x60#8) ∧
    (tagDispatch b = some .dtsNone ↔ b &&& 0xF0#8 = 0x70#8) ∧
    (tagDispatch b = some .d ↔ b &&& 0xE0#8 = 0x80#8) ∧
    (tagDispatch b = some .t ↔ b &&& 0xFE#8 = 0xA0#8) ∧
    (tagDispatch b = none ↔ 0xA2 ≤ b.toNat ∧ b.toNat ≤ 0xBF) ∧
    (tagDispatch b = some .dtz ↔ b &&& 0xE0#8 = 0xC0#8) ∧
    (tagDispatch b = some .dtszMs ↔ b &&& 0xF8#8 = 0xE0#8) ∧
    (tagDispatch b = some .dtszUs ↔ b &&& 0xF8#8 = 0xE8#8) ∧
    (tagDispatch b = some .dtszNs ↔ b &&& 0xF8#8 = 0xF0#8) ∧
    (tagDispatch b = some .dtszNone ↔ b &&& 0xF8#8 = 0xF8#8)) ∧
  ([Lid.dt, .dtsMs, .dtsUs, .dtsNs, .dtsNone, .d, .t, .dtz, .dtszMs, .dtszUs, .dtszNs, .dtszNone].map
      fun l => (l.toNat, l.len)) =
    [(2, 5), (5, 7), (6, 8), (7, 9), (4, 6), (0, 3), (1, 3), (3, 6), (9, 8), (10, 9), (11, 10), (8, 7)]

/-- R65: no tag is a prefix of another, so at most one row of the layout table matches a byte, and the
dispatcher finds it; 226 byte values match exactly one tag and 30 match none. -/
def Obligations.TagsArePrefixFree : Prop :=
  (∀ l l' : Lid, l ≠ l' → l.row.tagBits ≤ l'.row.tagBits →
    l'.row.tagValue >>> (l'.row.tagBits - l.row.tagBits) ≠ l.row.tagValue) ∧
  (∀ (b : Byte) (l : Lid),
    tagDispatch b = some l ↔ b.toNat >>> (8 - l.row.tagBits) = l.row.tagValue) ∧
  ((List.range 256).filter fun n => (tagDispatch (BitVec.ofNat 8 n)).isSome).length = 226 ∧
  ((List.range 256).filter fun n => (tagDispatch (BitVec.ofNat 8 n)).isNone).length = 30

/-- R50, R72: the bits of every layout sum to 8 times its length and its tag fits its bits; the layouts of
a select are the twelve, and 12 and above select none (R71, R74). -/
def Obligations.LayoutTableBitBudget : Prop :=
  (∀ l : Lid, l.row.tagBits + (l.fields.map Field.width).sum + l.row.padBits = 8 * l.len ∧
    l.row.tagValue < 2 ^ l.row.tagBits) ∧
  (∀ l : Lid, Lid.ofNat? l.toNat = some l) ∧
  (∀ n, 12 ≤ n → Lid.ofNat? n = none)

/-- R32: the wire word is big-endian: byte `i` is `W[8*(L-1-i)+7 : 8*(L-1-i)]`, and `W` is the sum of the
bytes shifted to their places; byte 0, bits `8*L-1` down to `8*L-8`, holds the tag in its most significant bits; the
worked example. -/
def Obligations.WireWordIsBigEndian : Prop :=
  (∀ (W L i : Nat), i < L →
    ((serialize W L).getD i 0#8).toNat = (W >>> (8 * (L - 1 - i))) % 2 ^ 8) ∧
  (∀ bs : List Byte, deserialize bs =
    ((List.range bs.length).map fun i =>
      (bs.getD i 0#8).toNat <<< (8 * (bs.length - 1 - i))).sum) ∧
  (∀ (W L : Nat), W < 2 ^ (8 * L) → deserialize (serialize W L) = W) ∧
  (∀ (i : Instr) (l : Lid), i.lid = some l →
    ((encode i).getD 0 0#8).toNat = deserialize (encode i) >>> (8 * l.len - 8) ∧
    ((encode i).getD 0 0#8).toNat >>> (8 - l.row.tagBits) = l.row.tagValue) ∧
  (∀ bs : List Byte, serialize (deserialize bs) bs.length = bs) ∧
  serialize 0x8F7E0E 3 = [0x8f#8, 0x7e#8, 0x0e#8]

/-- R67: `ENC` writes zero in every pad bit, and `DEC` does not look at pad bits: two words of a layout that
differ in pad bits only decode alike.  The second clause is the spec's decision D15 (notes/assumptions/15.md). -/
def Obligations.PadBitsWrittenZeroReadIgnored : Prop :=
  (∀ (i : Instr) (l : Lid), i.lid = some l → deserialize (encode i) % 2 ^ l.row.padBits = 0) ∧
  (∀ (l : Lid) (W W' : Nat) (rest : List Byte), W < 2 ^ (8 * l.len) → W' < 2 ^ (8 * l.len) →
    W >>> (8 * l.len - l.row.tagBits) = l.row.tagValue →
    W >>> l.row.padBits = W' >>> l.row.padBits →
    decode (serialize W l.len ++ rest) = decode (serialize W' l.len ++ rest))

/-- R156 (d): `pack` is injective on the wire values of a layout, and the bytes on instructions.  The last
clause says why the layout must be fixed: as numbers, the words of two layouts of different length can be
equal (notes/assumptions/28.md). -/
def Obligations.PackedWordsAreInjective : Prop :=
  (∀ (i j : Instr) (l : Lid), i.lid = some l → j.lid = some l →
    pack l i.operands = pack l j.operands → i = j) ∧
  (∀ i j : Instr, encode i = encode j → i = j) ∧
  (∃ (i j : Instr) (l l' : Lid), i.lid = some l ∧ j.lid = some l' ∧ l ≠ l' ∧
    pack l i.operands = pack l' j.operands)

/-! ### The layouts under ENC and DEC -/

/-- R144 to R145: `ENC` of layouts D and T.  Under `ENC` the instruction completes; its output is the wire
word of the rule's closed form in the layout's bytes, and nothing else changes.  For each layout: its number,
the closed form and its width, the "all absent" line, the example line. -/
def Obligations.EncodeDAndT : Prop :=
  (∀ (Y : BitVec 12) (M : BitVec 4) (D : BitVec 5),
    let W := (4 <<< 21) ||| (Y.toNat <<< 9) ||| (M.toNat <<< 5) ||| D.toNat
    Lid.toNat .d = 0 ∧ W < 2 ^ 24 ∧ ∀ s : State, s.op = .enc →
      exec (.d Y M D) s =
        .next (s.withOut (.encoded .d (portBuffer (serialize W 3))))) ∧
  encodesTo (.d 4095 15 31) .d
    [0x9f#8, 0xff#8, 0xff#8] ∧
  encodesTo (.d 1983 0 14) .d
    [0x8f#8, 0x7e#8, 0x0e#8] ∧
  (∀ (h : BitVec 5) (m : BitVec 6) (sec : BitVec 6),
    let W := (80 <<< 17) ||| (h.toNat <<< 12) ||| (m.toNat <<< 6) ||| sec.toNat
    Lid.toNat .t = 1 ∧ W < 2 ^ 24 ∧ ∀ s : State, s.op = .enc →
      exec (.t h m sec) s =
        .next (s.withOut (.encoded .t (portBuffer (serialize W 3))))) ∧
  encodesTo (.t 31 63 63) .t
    [0xa1#8, 0xff#8, 0xff#8] ∧
  encodesTo (.t 18 25 12) .t
    [0xa1#8, 0x26#8, 0x4c#8] ∧
  (∀ (h : BitVec 5) (m sec : BitVec 6), (encode (.t h m sec)).head? =
    if h.toNat < 16 then some 0xa0#8 else some 0xa1#8)

/-- R146 to R147: `ENC` of layouts DT and DTZ.  Under `ENC` the instruction completes; its output is the wire
word of the rule's closed form in the layout's bytes, and nothing else changes.  For each layout: its number,
the closed form and its width, the "all absent" line, the example line. -/
def Obligations.EncodeDTAndDTZ : Prop :=
  (∀ (Y : BitVec 12) (M : BitVec 4) (D : BitVec 5) (h : BitVec 5) (m : BitVec 6) (sec : BitVec 6),
    let W := (Y.toNat <<< 26) ||| (M.toNat <<< 22) ||| (D.toNat <<< 17) ||| (h.toNat <<< 12) |||
      (m.toNat <<< 6) ||| sec.toNat
    Lid.toNat .dt = 2 ∧ W < 2 ^ 40 ∧ ∀ s : State, s.op = .enc →
      exec (.dt Y M D h m sec) s =
        .next (s.withOut (.encoded .dt (portBuffer (serialize W 5))))) ∧
  encodesTo (.dt 4095 15 31 31 63 63) .dt
    [0x3f#8, 0xff#8, 0xff#8, 0xff#8, 0xff#8] ∧
  encodesTo (.dt 1983 0 14 18 25 12) .dt
    [0x1e#8, 0xfc#8, 0x1d#8, 0x26#8, 0x4c#8] ∧
  (∀ (Y : BitVec 12) (M : BitVec 4) (D : BitVec 5) (h : BitVec 5) (m : BitVec 6) (sec : BitVec 6)
    (z : BitVec 7),
    let W := (6 <<< 45) ||| (Y.toNat <<< 33) ||| (M.toNat <<< 29) ||| (D.toNat <<< 24) |||
      (h.toNat <<< 19) ||| (m.toNat <<< 13) ||| (sec.toNat <<< 7) ||| z.toNat
    Lid.toNat .dtz = 3 ∧ W < 2 ^ 48 ∧ ∀ s : State, s.op = .enc →
      exec (.dtz Y M D h m sec z) s =
        .next (s.withOut (.encoded .dtz (portBuffer (serialize W 6))))) ∧
  encodesTo (.dtz 4095 15 31 31 63 63 127) .dtz
    [0xdf#8, 0xff#8, 0xff#8, 0xff#8, 0xff#8, 0xff#8] ∧
  encodesTo (.dtz 1983 0 14 18 25 12 68) .dtz
    [0xcf#8, 0x7e#8, 0x0e#8, 0x93#8, 0x26#8, 0x44#8]

/-- R148 to R151: `ENC` of the DTS layouts.  Under `ENC` the instruction completes; its output is the wire
word of the rule's closed form in the layout's bytes, and nothing else changes.  For each layout: its number,
the closed form and its width, the "all absent" line, the example line. -/
def Obligations.EncodeDTS : Prop :=
  (∀ (Y : BitVec 12) (M : BitVec 4) (D : BitVec 5) (h : BitVec 5) (m : BitVec 6) (sec : BitVec 6),
    let W := (7 <<< 44) ||| (Y.toNat <<< 32) ||| (M.toNat <<< 28) ||| (D.toNat <<< 23) |||
      (h.toNat <<< 18) ||| (m.toNat <<< 12) ||| (sec.toNat <<< 6)
    Lid.toNat .dtsNone = 4 ∧ W < 2 ^ 48 ∧ ∀ s : State, s.op = .enc →
      exec (.dtsNone Y M D h m sec) s =
        .next (s.withOut (.encoded .dtsNone (portBuffer (serialize W 6))))) ∧
  encodesTo (.dtsNone 4095 15 31 31 63 63) .dtsNone
    [0x7f#8, 0xff#8, 0xff#8, 0xff#8, 0xff#8, 0xc0#8] ∧
  encodesTo (.dtsNone 1983 0 14 18 25 12) .dtsNone
    [0x77#8, 0xbf#8, 0x07#8, 0x49#8, 0x93#8, 0x00#8] ∧
  (∀ (Y : BitVec 12) (M : BitVec 4) (D : BitVec 5) (h : BitVec 5) (m : BitVec 6) (sec : BitVec 6)
    (f : BitVec 10),
    let W := (4 <<< 52) ||| (Y.toNat <<< 40) ||| (M.toNat <<< 36) ||| (D.toNat <<< 31) |||
      (h.toNat <<< 26) ||| (m.toNat <<< 20) ||| (sec.toNat <<< 14) ||| (f.toNat <<< 4)
    Lid.toNat .dtsMs = 5 ∧ W < 2 ^ 56 ∧ ∀ s : State, s.op = .enc →
      exec (.dtsMs Y M D h m sec f) s =
        .next (s.withOut (.encoded .dtsMs (portBuffer (serialize W 7))))) ∧
  encodesTo (.dtsMs 4095 15 31 31 63 63 0) .dtsMs
    [0x4f#8, 0xff#8, 0xff#8, 0xff#8, 0xff#8, 0xc0#8, 0x00#8] ∧
  encodesTo (.dtsMs 1983 0 14 18 25 12 123) .dtsMs
    [0x47#8, 0xbf#8, 0x07#8, 0x49#8, 0x93#8, 0x07#8, 0xb0#8] ∧
  (∀ (Y : BitVec 12) (M : BitVec 4) (D : BitVec 5) (h : BitVec 5) (m : BitVec 6) (sec : BitVec 6)
    (f : BitVec 20),
    let W := (5 <<< 60) ||| (Y.toNat <<< 48) ||| (M.toNat <<< 44) ||| (D.toNat <<< 39) |||
      (h.toNat <<< 34) ||| (m.toNat <<< 28) ||| (sec.toNat <<< 22) ||| (f.toNat <<< 2)
    Lid.toNat .dtsUs = 6 ∧ W < 2 ^ 64 ∧ ∀ s : State, s.op = .enc →
      exec (.dtsUs Y M D h m sec f) s =
        .next (s.withOut (.encoded .dtsUs (portBuffer (serialize W 8))))) ∧
  encodesTo (.dtsUs 4095 15 31 31 63 63 0) .dtsUs
    [0x5f#8, 0xff#8, 0xff#8, 0xff#8, 0xff#8, 0xc0#8, 0x00#8, 0x00#8] ∧
  encodesTo (.dtsUs 1983 0 14 18 25 12 123456) .dtsUs
    [0x57#8, 0xbf#8, 0x07#8, 0x49#8, 0x93#8, 0x07#8, 0x89#8, 0x00#8] ∧
  (∀ (Y : BitVec 12) (M : BitVec 4) (D : BitVec 5) (h : BitVec 5) (m : BitVec 6) (sec : BitVec 6)
    (f : BitVec 30),
    let W := (6 <<< 68) ||| (Y.toNat <<< 56) ||| (M.toNat <<< 52) ||| (D.toNat <<< 47) |||
      (h.toNat <<< 42) ||| (m.toNat <<< 36) ||| (sec.toNat <<< 30) ||| f.toNat
    Lid.toNat .dtsNs = 7 ∧ W < 2 ^ 72 ∧ ∀ s : State, s.op = .enc →
      exec (.dtsNs Y M D h m sec f) s =
        .next (s.withOut (.encoded .dtsNs (portBuffer (serialize W 9))))) ∧
  encodesTo (.dtsNs 4095 15 31 31 63 63 0) .dtsNs
    [0x6f#8, 0xff#8, 0xff#8, 0xff#8, 0xff#8, 0xc0#8, 0x00#8, 0x00#8, 0x00#8] ∧
  encodesTo (.dtsNs 1983 0 14 18 25 12 123456789) .dtsNs
    [0x67#8, 0xbf#8, 0x07#8, 0x49#8, 0x93#8, 0x07#8, 0x5b#8, 0xcd#8, 0x15#8]

/-- R152 to R155: `ENC` of the DTSZ layouts.  Under `ENC` the instruction completes; its output is the wire
word of the rule's closed form in the layout's bytes, and nothing else changes.  For each layout: its number,
the closed form and its width, the "all absent" line, the example line. -/
def Obligations.EncodeDTSZ : Prop :=
  (∀ (Y : BitVec 12) (M : BitVec 4) (D : BitVec 5) (h : BitVec 5) (m : BitVec 6) (sec : BitVec 6)
    (z : BitVec 7),
    let W := (31 <<< 51) ||| (Y.toNat <<< 39) ||| (M.toNat <<< 35) ||| (D.toNat <<< 30) |||
      (h.toNat <<< 25) ||| (m.toNat <<< 19) ||| (sec.toNat <<< 13) ||| (z.toNat <<< 6)
    Lid.toNat .dtszNone = 8 ∧ W < 2 ^ 56 ∧ ∀ s : State, s.op = .enc →
      exec (.dtszNone Y M D h m sec z) s =
        .next (s.withOut (.encoded .dtszNone (portBuffer (serialize W 7))))) ∧
  encodesTo (.dtszNone 4095 15 31 31 63 63 127) .dtszNone
    [0xff#8, 0xff#8, 0xff#8, 0xff#8, 0xff#8, 0xff#8, 0xc0#8] ∧
  encodesTo (.dtszNone 1983 0 14 18 25 12 68) .dtszNone
    [0xfb#8, 0xdf#8, 0x83#8, 0xa4#8, 0xc9#8, 0x91#8, 0x00#8] ∧
  (∀ (Y : BitVec 12) (M : BitVec 4) (D : BitVec 5) (h : BitVec 5) (m : BitVec 6) (sec : BitVec 6)
    (z : BitVec 7) (f : BitVec 10),
    let W := (28 <<< 59) ||| (Y.toNat <<< 47) ||| (M.toNat <<< 43) ||| (D.toNat <<< 38) |||
      (h.toNat <<< 33) ||| (m.toNat <<< 27) ||| (sec.toNat <<< 21) ||| (z.toNat <<< 14) |||
      (f.toNat <<< 4)
    Lid.toNat .dtszMs = 9 ∧ W < 2 ^ 64 ∧ ∀ s : State, s.op = .enc →
      exec (.dtszMs Y M D h m sec z f) s =
        .next (s.withOut (.encoded .dtszMs (portBuffer (serialize W 8))))) ∧
  encodesTo (.dtszMs 4095 15 31 31 63 63 127 0) .dtszMs
    [0xe7#8, 0xff#8, 0xff#8, 0xff#8, 0xff#8, 0xff#8, 0xc0#8, 0x00#8] ∧
  encodesTo (.dtszMs 1983 0 14 18 25 12 68 123) .dtszMs
    [0xe3#8, 0xdf#8, 0x83#8, 0xa4#8, 0xc9#8, 0x91#8, 0x07#8, 0xb0#8] ∧
  (∀ (Y : BitVec 12) (M : BitVec 4) (D : BitVec 5) (h : BitVec 5) (m : BitVec 6) (sec : BitVec 6)
    (z : BitVec 7) (f : BitVec 20),
    let W := (29 <<< 67) ||| (Y.toNat <<< 55) ||| (M.toNat <<< 51) ||| (D.toNat <<< 46) |||
      (h.toNat <<< 41) ||| (m.toNat <<< 35) ||| (sec.toNat <<< 29) ||| (z.toNat <<< 22) |||
      (f.toNat <<< 2)
    Lid.toNat .dtszUs = 10 ∧ W < 2 ^ 72 ∧ ∀ s : State, s.op = .enc →
      exec (.dtszUs Y M D h m sec z f) s =
        .next (s.withOut (.encoded .dtszUs (portBuffer (serialize W 9))))) ∧
  encodesTo (.dtszUs 4095 15 31 31 63 63 127 0) .dtszUs
    [0xef#8, 0xff#8, 0xff#8, 0xff#8, 0xff#8, 0xff#8, 0xc0#8, 0x00#8, 0x00#8] ∧
  encodesTo (.dtszUs 1983 0 14 18 25 12 68 123456) .dtszUs
    [0xeb#8, 0xdf#8, 0x83#8, 0xa4#8, 0xc9#8, 0x91#8, 0x07#8, 0x89#8, 0x00#8] ∧
  (∀ (Y : BitVec 12) (M : BitVec 4) (D : BitVec 5) (h : BitVec 5) (m : BitVec 6) (sec : BitVec 6)
    (z : BitVec 7) (f : BitVec 30),
    let W := (30 <<< 75) ||| (Y.toNat <<< 63) ||| (M.toNat <<< 59) ||| (D.toNat <<< 54) |||
      (h.toNat <<< 49) ||| (m.toNat <<< 43) ||| (sec.toNat <<< 37) ||| (z.toNat <<< 30) |||
      f.toNat
    Lid.toNat .dtszNs = 11 ∧ W < 2 ^ 80 ∧ ∀ s : State, s.op = .enc →
      exec (.dtszNs Y M D h m sec z f) s =
        .next (s.withOut (.encoded .dtszNs (portBuffer (serialize W 10))))) ∧
  encodesTo (.dtszNs 4095 15 31 31 63 63 127 0) .dtszNs
    [0xf7#8, 0xff#8, 0xff#8, 0xff#8, 0xff#8, 0xff#8, 0xc0#8, 0x00#8, 0x00#8, 0x00#8] ∧
  encodesTo (.dtszNs 1983 0 14 18 25 12 68 123456789) .dtszNs
    [0xf3#8, 0xdf#8, 0x83#8, 0xa4#8, 0xc9#8, 0x91#8, 0x07#8, 0x5b#8, 0xcd#8, 0x15#8]

/-- R52 to R63: the formats of the twelve layouts.  For each: its number and its length in bytes, and, for every wire
word that begins with its tag, the decoder reads each field at its bit range.  That it does so whatever the pad bits
hold is not in those rules: it is the spec's decision D15 (R67; notes/assumptions/15.md). -/
def Obligations.WireFormats : Prop :=
  (Lid.toNat .d = 0 ∧ Lid.len .d = 3) ∧
  (∀ (W : BitVec 24) (rest : List Byte), W.extractLsb 23 21 = 0b100#3 →
    decode (serialize W.toNat 3 ++ rest) =
      .ok (.d (W.extractLsb 20 9) (W.extractLsb 8 5) (W.extractLsb 4 0), rest)) ∧
  (Lid.toNat .t = 1 ∧ Lid.len .t = 3) ∧
  (∀ (W : BitVec 24) (rest : List Byte), W.extractLsb 23 17 = 0b1010000#7 →
    decode (serialize W.toNat 3 ++ rest) =
      .ok (.t (W.extractLsb 16 12) (W.extractLsb 11 6) (W.extractLsb 5 0), rest)) ∧
  (Lid.toNat .dt = 2 ∧ Lid.len .dt = 5) ∧
  (∀ (W : BitVec 40) (rest : List Byte), W.extractLsb 39 38 = 0b00#2 →
    decode (serialize W.toNat 5 ++ rest) =
      .ok (.dt (W.extractLsb 37 26) (W.extractLsb 25 22) (W.extractLsb 21 17) (W.extractLsb 16 12)
            (W.extractLsb 11 6) (W.extractLsb 5 0), rest)) ∧
  (Lid.toNat .dtz = 3 ∧ Lid.len .dtz = 6) ∧
  (∀ (W : BitVec 48) (rest : List Byte), W.extractLsb 47 45 = 0b110#3 →
    decode (serialize W.toNat 6 ++ rest) =
      .ok (.dtz (W.extractLsb 44 33) (W.extractLsb 32 29) (W.extractLsb 28 24) (W.extractLsb 23 19)
            (W.extractLsb 18 13) (W.extractLsb 12 7) (W.extractLsb 6 0), rest)) ∧
  (Lid.toNat .dtsNone = 4 ∧ Lid.len .dtsNone = 6) ∧
  (∀ (W : BitVec 48) (rest : List Byte), W.extractLsb 47 44 = 0b0111#4 →
    decode (serialize W.toNat 6 ++ rest) =
      .ok (.dtsNone (W.extractLsb 43 32) (W.extractLsb 31 28) (W.extractLsb 27 23) (W.extractLsb 22 18)
            (W.extractLsb 17 12) (W.extractLsb 11 6), rest)) ∧
  (Lid.toNat .dtsMs = 5 ∧ Lid.len .dtsMs = 7) ∧
  (∀ (W : BitVec 56) (rest : List Byte), W.extractLsb 55 52 = 0b0100#4 →
    decode (serialize W.toNat 7 ++ rest) =
      .ok (.dtsMs (W.extractLsb 51 40) (W.extractLsb 39 36) (W.extractLsb 35 31) (W.extractLsb 30 26)
            (W.extractLsb 25 20) (W.extractLsb 19 14) (W.extractLsb 13 4), rest)) ∧
  (Lid.toNat .dtsUs = 6 ∧ Lid.len .dtsUs = 8) ∧
  (∀ (W : BitVec 64) (rest : List Byte), W.extractLsb 63 60 = 0b0101#4 →
    decode (serialize W.toNat 8 ++ rest) =
      .ok (.dtsUs (W.extractLsb 59 48) (W.extractLsb 47 44) (W.extractLsb 43 39) (W.extractLsb 38 34)
            (W.extractLsb 33 28) (W.extractLsb 27 22) (W.extractLsb 21 2), rest)) ∧
  (Lid.toNat .dtsNs = 7 ∧ Lid.len .dtsNs = 9) ∧
  (∀ (W : BitVec 72) (rest : List Byte), W.extractLsb 71 68 = 0b0110#4 →
    decode (serialize W.toNat 9 ++ rest) =
      .ok (.dtsNs (W.extractLsb 67 56) (W.extractLsb 55 52) (W.extractLsb 51 47) (W.extractLsb 46 42)
            (W.extractLsb 41 36) (W.extractLsb 35 30) (W.extractLsb 29 0), rest)) ∧
  (Lid.toNat .dtszNone = 8 ∧ Lid.len .dtszNone = 7) ∧
  (∀ (W : BitVec 56) (rest : List Byte), W.extractLsb 55 51 = 0b11111#5 →
    decode (serialize W.toNat 7 ++ rest) =
      .ok (.dtszNone (W.extractLsb 50 39) (W.extractLsb 38 35) (W.extractLsb 34 30) (W.extractLsb 29 25)
            (W.extractLsb 24 19) (W.extractLsb 18 13) (W.extractLsb 12 6), rest)) ∧
  (Lid.toNat .dtszMs = 9 ∧ Lid.len .dtszMs = 8) ∧
  (∀ (W : BitVec 64) (rest : List Byte), W.extractLsb 63 59 = 0b11100#5 →
    decode (serialize W.toNat 8 ++ rest) =
      .ok (.dtszMs (W.extractLsb 58 47) (W.extractLsb 46 43) (W.extractLsb 42 38) (W.extractLsb 37 33)
            (W.extractLsb 32 27) (W.extractLsb 26 21) (W.extractLsb 20 14) (W.extractLsb 13 4), rest)) ∧
  (Lid.toNat .dtszUs = 10 ∧ Lid.len .dtszUs = 9) ∧
  (∀ (W : BitVec 72) (rest : List Byte), W.extractLsb 71 67 = 0b11101#5 →
    decode (serialize W.toNat 9 ++ rest) =
      .ok (.dtszUs (W.extractLsb 66 55) (W.extractLsb 54 51) (W.extractLsb 50 46) (W.extractLsb 45 41)
            (W.extractLsb 40 35) (W.extractLsb 34 29) (W.extractLsb 28 22) (W.extractLsb 21 2), rest)) ∧
  (Lid.toNat .dtszNs = 11 ∧ Lid.len .dtszNs = 10) ∧
  (∀ (W : BitVec 80) (rest : List Byte), W.extractLsb 79 75 = 0b11110#5 →
    decode (serialize W.toNat 10 ++ rest) =
      .ok (.dtszNs (W.extractLsb 74 63) (W.extractLsb 62 59) (W.extractLsb 58 54) (W.extractLsb 53 49)
            (W.extractLsb 48 43) (W.extractLsb 42 37) (W.extractLsb 36 30) (W.extractLsb 29 0), rest))

/-- R184 to R185: `DEC` of layouts D and T.  Under `DEC` each instruction completes: the fields are examined in the
rule's order and the result has the rule's slots; the rule's examples.  The ranges and sentinels but the year's are
the spec's decisions D6 to D10 (R111; notes/assumptions/13.md), the order is its decision D17. -/
def Obligations.DecodeDAndT : Prop :=
  (∀ (s : State) (Y : BitVec 12) (M : BitVec 4) (D : BitVec 5),
    s.op = .dec ∨ s.op = .streamDec →
    exec (.d Y M D) s = .next (s.withOut (examine
      [(.month, M.toNat, 12, 14)]
      (.decoded .d
         { year := presentUnless 4095 Y.toNat,
           month := (presentUnless 15 M.toNat).map (· + 1),
           day := (presentUnless 31 D.toNat).map (· + 1) })))) ∧
  decodesTo [0x8f#8, 0x7e#8, 0x0e#8]
    (.decoded .d
      { year := some 1983, month := some 1, day := some 15 }) ∧
  decodesTo [0x9f#8, 0xff#8, 0xff#8] (.decoded .d {}) ∧
  (∀ (s : State) (h : BitVec 5) (m : BitVec 6) (sec : BitVec 6),
    s.op = .dec ∨ s.op = .streamDec →
    exec (.t h m sec) s = .next (s.withOut (examine
      [(.second, sec.toNat, 61, 62), (.minute, m.toNat, 60, 62), (.hour, h.toNat, 24, 30)]
      (.decoded .t
         { hour := presentUnless 31 h.toNat,
           minute := presentUnless 63 m.toNat,
           second := presentUnless 63 sec.toNat })))) ∧
  decodesTo [0xa1#8, 0x26#8, 0x4c#8]
    (.decoded .t
      { hour := some 18, minute := some 25, second := some 12 }) ∧
  decodesTo [0xa1#8, 0xff#8, 0xff#8] (.decoded .t {}) ∧
  decodesTo [0xa0#8, 0x00#8, 0x00#8] (.decoded .t { hour := some 0, minute := some 0, second := some 0 })

/-- R186 to R187: `DEC` of layouts DT and DTZ.  Under `DEC` each instruction completes: the fields are examined in the
rule's order and the result has the rule's slots; the rule's examples.  The ranges and sentinels but the year's are
the spec's decisions D6 to D10 (R111; notes/assumptions/13.md), the order is its decision D17. -/
def Obligations.DecodeDTAndDTZ : Prop :=
  (∀ (s : State) (Y : BitVec 12) (M : BitVec 4) (D : BitVec 5) (h : BitVec 5) (m : BitVec 6) (sec : BitVec 6),
    s.op = .dec ∨ s.op = .streamDec →
    exec (.dt Y M D h m sec) s = .next (s.withOut (examine
      [(.second, sec.toNat, 61, 62), (.minute, m.toNat, 60, 62), (.hour, h.toNat, 24, 30),
       (.month, M.toNat, 12, 14)]
      (.decoded .dt
         { year := presentUnless 4095 Y.toNat,
           month := (presentUnless 15 M.toNat).map (· + 1),
           day := (presentUnless 31 D.toNat).map (· + 1),
           hour := presentUnless 31 h.toNat,
           minute := presentUnless 63 m.toNat,
           second := presentUnless 63 sec.toNat })))) ∧
  decodesTo [0x1e#8, 0xfc#8, 0x1d#8, 0x26#8, 0x4c#8]
    (.decoded .dt
      { year := some 1983, month := some 1, day := some 15, hour := some 18, minute := some 25,
        second := some 12 }) ∧
  (∀ (s : State) (Y : BitVec 12) (M : BitVec 4) (D : BitVec 5) (h : BitVec 5) (m : BitVec 6) (sec : BitVec 6)
    (z : BitVec 7),
    s.op = .dec ∨ s.op = .streamDec →
    exec (.dtz Y M D h m sec z) s = .next (s.withOut (examine
      [(.tz, z.toNat, 126, 126), (.second, sec.toNat, 61, 62), (.minute, m.toNat, 60, 62),
       (.hour, h.toNat, 24, 30), (.month, M.toNat, 12, 14)]
      (.decoded .dtz
         { year := presentUnless 4095 Y.toNat,
           month := (presentUnless 15 M.toNat).map (· + 1),
           day := (presentUnless 31 D.toNat).map (· + 1),
           hour := presentUnless 31 h.toNat,
           minute := presentUnless 63 m.toNat,
           second := presentUnless 63 sec.toNat,
           tzOffset := (presentUnless 127 z.toNat).map fun (w : Nat) => ((w : Int) - 64) * 15,
           tzHour := (presentUnless 127 z.toNat).map fun (w : Nat) => (((w : Int) - 64) * 15).natAbs / 60,
           tzMinute := (presentUnless 127 z.toNat).map fun (w : Nat) => (((w : Int) - 64) * 15).natAbs % 60 })))) ∧
  decodesTo [0xcf#8, 0x7e#8, 0x0e#8, 0x93#8, 0x26#8, 0x44#8]
    (.decoded .dtz
      { year := some 1983, month := some 1, day := some 15, hour := some 18, minute := some 25,
        second := some 12, tzOffset := some 60, tzHour := some 1, tzMinute := some 0 })

/-- R188 to R191: `DEC` of the DTS layouts.  Under `DEC` each instruction completes: the fields are examined in the
rule's order and the result has the rule's slots; the rule's examples.  The ranges and sentinels but the year's are
the spec's decisions D6 to D10 (R111; notes/assumptions/13.md), the order is its decision D17. -/
def Obligations.DecodeDTS : Prop :=
  (∀ (s : State) (Y : BitVec 12) (M : BitVec 4) (D : BitVec 5) (h : BitVec 5) (m : BitVec 6) (sec : BitVec 6),
    s.op = .dec ∨ s.op = .streamDec →
    exec (.dtsNone Y M D h m sec) s = .next (s.withOut (examine
      [(.second, sec.toNat, 61, 62), (.minute, m.toNat, 60, 62), (.hour, h.toNat, 24, 30),
       (.month, M.toNat, 12, 14)]
      (.decoded .dtsNone
         { year := presentUnless 4095 Y.toNat,
           month := (presentUnless 15 M.toNat).map (· + 1),
           day := (presentUnless 31 D.toNat).map (· + 1),
           hour := presentUnless 31 h.toNat,
           minute := presentUnless 63 m.toNat,
           second := presentUnless 63 sec.toNat })))) ∧
  decodesTo [0x77#8, 0xbf#8, 0x07#8, 0x49#8, 0x93#8, 0x00#8]
    (.decoded .dtsNone
      { year := some 1983, month := some 1, day := some 15, hour := some 18, minute := some 25,
        second := some 12 }) ∧
  (∀ (s : State) (Y : BitVec 12) (M : BitVec 4) (D : BitVec 5) (h : BitVec 5) (m : BitVec 6) (sec : BitVec 6)
    (f : BitVec 10),
    s.op = .dec ∨ s.op = .streamDec →
    exec (.dtsMs Y M D h m sec f) s = .next (s.withOut (examine
      [(.millisecond, f.toNat, 1000, 1023), (.second, sec.toNat, 61, 62),
       (.minute, m.toNat, 60, 62), (.hour, h.toNat, 24, 30), (.month, M.toNat, 12, 14)]
      (.decoded .dtsMs
         { year := presentUnless 4095 Y.toNat,
           month := (presentUnless 15 M.toNat).map (· + 1),
           day := (presentUnless 31 D.toNat).map (· + 1),
           hour := presentUnless 31 h.toNat,
           minute := presentUnless 63 m.toNat,
           second := presentUnless 63 sec.toNat,
           millisecond := some f.toNat,
           microsecond := some (f.toNat * 1000),
           nanosecond := some (f.toNat * 1000000) })))) ∧
  decodesTo [0x47#8, 0xbf#8, 0x07#8, 0x49#8, 0x93#8, 0x07#8, 0xb0#8]
    (.decoded .dtsMs
      { year := some 1983, month := some 1, day := some 15, hour := some 18, minute := some 25,
        second := some 12, millisecond := some 123, microsecond := some 123000,
        nanosecond := some 123000000 }) ∧
  (∀ (s : State) (Y : BitVec 12) (M : BitVec 4) (D : BitVec 5) (h : BitVec 5) (m : BitVec 6) (sec : BitVec 6)
    (f : BitVec 20),
    s.op = .dec ∨ s.op = .streamDec →
    exec (.dtsUs Y M D h m sec f) s = .next (s.withOut (examine
      [(.microsecond, f.toNat, 1000000, 1048575), (.second, sec.toNat, 61, 62),
       (.minute, m.toNat, 60, 62), (.hour, h.toNat, 24, 30), (.month, M.toNat, 12, 14)]
      (.decoded .dtsUs
         { year := presentUnless 4095 Y.toNat,
           month := (presentUnless 15 M.toNat).map (· + 1),
           day := (presentUnless 31 D.toNat).map (· + 1),
           hour := presentUnless 31 h.toNat,
           minute := presentUnless 63 m.toNat,
           second := presentUnless 63 sec.toNat,
           millisecond := some (f.toNat / 1000),
           microsecond := some f.toNat,
           nanosecond := some (f.toNat * 1000) })))) ∧
  decodesTo [0x57#8, 0xbf#8, 0x07#8, 0x49#8, 0x93#8, 0x07#8, 0x89#8, 0x00#8]
    (.decoded .dtsUs
      { year := some 1983, month := some 1, day := some 15, hour := some 18, minute := some 25,
        second := some 12, millisecond := some 123, microsecond := some 123456,
        nanosecond := some 123456000 }) ∧
  (∀ (s : State) (Y : BitVec 12) (M : BitVec 4) (D : BitVec 5) (h : BitVec 5) (m : BitVec 6) (sec : BitVec 6)
    (f : BitVec 30),
    s.op = .dec ∨ s.op = .streamDec →
    exec (.dtsNs Y M D h m sec f) s = .next (s.withOut (examine
      [(.nanosecond, f.toNat, 1000000000, 1073741823), (.second, sec.toNat, 61, 62),
       (.minute, m.toNat, 60, 62), (.hour, h.toNat, 24, 30), (.month, M.toNat, 12, 14)]
      (.decoded .dtsNs
         { year := presentUnless 4095 Y.toNat,
           month := (presentUnless 15 M.toNat).map (· + 1),
           day := (presentUnless 31 D.toNat).map (· + 1),
           hour := presentUnless 31 h.toNat,
           minute := presentUnless 63 m.toNat,
           second := presentUnless 63 sec.toNat,
           millisecond := some (f.toNat / 1000000),
           microsecond := some (f.toNat / 1000),
           nanosecond := some f.toNat })))) ∧
  decodesTo [0x67#8, 0xbf#8, 0x07#8, 0x49#8, 0x93#8, 0x07#8, 0x5b#8, 0xcd#8, 0x15#8]
    (.decoded .dtsNs
      { year := some 1983, month := some 1, day := some 15, hour := some 18, minute := some 25,
        second := some 12, millisecond := some 123, microsecond := some 123456,
        nanosecond := some 123456789 })

/-- R192 to R195: `DEC` of the DTSZ layouts.  Under `DEC` each instruction completes: the fields are examined in the
rule's order and the result has the rule's slots; the rule's examples.  The ranges and sentinels but the year's are
the spec's decisions D6 to D10 (R111; notes/assumptions/13.md), the order is its decision D17. -/
def Obligations.DecodeDTSZ : Prop :=
  (∀ (s : State) (Y : BitVec 12) (M : BitVec 4) (D : BitVec 5) (h : BitVec 5) (m : BitVec 6) (sec : BitVec 6)
    (z : BitVec 7),
    s.op = .dec ∨ s.op = .streamDec →
    exec (.dtszNone Y M D h m sec z) s = .next (s.withOut (examine
      [(.tz, z.toNat, 126, 126), (.second, sec.toNat, 61, 62), (.minute, m.toNat, 60, 62),
       (.hour, h.toNat, 24, 30), (.month, M.toNat, 12, 14)]
      (.decoded .dtszNone
         { year := presentUnless 4095 Y.toNat,
           month := (presentUnless 15 M.toNat).map (· + 1),
           day := (presentUnless 31 D.toNat).map (· + 1),
           hour := presentUnless 31 h.toNat,
           minute := presentUnless 63 m.toNat,
           second := presentUnless 63 sec.toNat,
           tzOffset := (presentUnless 127 z.toNat).map fun (w : Nat) => ((w : Int) - 64) * 15,
           tzHour := (presentUnless 127 z.toNat).map fun (w : Nat) => (((w : Int) - 64) * 15).natAbs / 60,
           tzMinute := (presentUnless 127 z.toNat).map fun (w : Nat) => (((w : Int) - 64) * 15).natAbs % 60 })))) ∧
  decodesTo [0xfb#8, 0xdf#8, 0x83#8, 0xa4#8, 0xc9#8, 0x91#8, 0x00#8]
    (.decoded .dtszNone
      { year := some 1983, month := some 1, day := some 15, hour := some 18, minute := some 25,
        second := some 12, tzOffset := some 60, tzHour := some 1, tzMinute := some 0 }) ∧
  (∀ (s : State) (Y : BitVec 12) (M : BitVec 4) (D : BitVec 5) (h : BitVec 5) (m : BitVec 6) (sec : BitVec 6)
    (z : BitVec 7) (f : BitVec 10),
    s.op = .dec ∨ s.op = .streamDec →
    exec (.dtszMs Y M D h m sec z f) s = .next (s.withOut (examine
      [(.millisecond, f.toNat, 1000, 1023), (.tz, z.toNat, 126, 126),
       (.second, sec.toNat, 61, 62), (.minute, m.toNat, 60, 62), (.hour, h.toNat, 24, 30),
       (.month, M.toNat, 12, 14)]
      (.decoded .dtszMs
         { year := presentUnless 4095 Y.toNat,
           month := (presentUnless 15 M.toNat).map (· + 1),
           day := (presentUnless 31 D.toNat).map (· + 1),
           hour := presentUnless 31 h.toNat,
           minute := presentUnless 63 m.toNat,
           second := presentUnless 63 sec.toNat,
           tzOffset := (presentUnless 127 z.toNat).map fun (w : Nat) => ((w : Int) - 64) * 15,
           tzHour := (presentUnless 127 z.toNat).map fun (w : Nat) => (((w : Int) - 64) * 15).natAbs / 60,
           tzMinute := (presentUnless 127 z.toNat).map fun (w : Nat) => (((w : Int) - 64) * 15).natAbs % 60,
           millisecond := some f.toNat,
           microsecond := some (f.toNat * 1000),
           nanosecond := some (f.toNat * 1000000) })))) ∧
  decodesTo [0xe3#8, 0xdf#8, 0x83#8, 0xa4#8, 0xc9#8, 0x91#8, 0x07#8, 0xb0#8]
    (.decoded .dtszMs
      { year := some 1983, month := some 1, day := some 15, hour := some 18, minute := some 25,
        second := some 12, tzOffset := some 60, tzHour := some 1, tzMinute := some 0,
        millisecond := some 123, microsecond := some 123000, nanosecond := some 123000000 }) ∧
  (∀ (s : State) (Y : BitVec 12) (M : BitVec 4) (D : BitVec 5) (h : BitVec 5) (m : BitVec 6) (sec : BitVec 6)
    (z : BitVec 7) (f : BitVec 20),
    s.op = .dec ∨ s.op = .streamDec →
    exec (.dtszUs Y M D h m sec z f) s = .next (s.withOut (examine
      [(.microsecond, f.toNat, 1000000, 1048575), (.tz, z.toNat, 126, 126),
       (.second, sec.toNat, 61, 62), (.minute, m.toNat, 60, 62), (.hour, h.toNat, 24, 30),
       (.month, M.toNat, 12, 14)]
      (.decoded .dtszUs
         { year := presentUnless 4095 Y.toNat,
           month := (presentUnless 15 M.toNat).map (· + 1),
           day := (presentUnless 31 D.toNat).map (· + 1),
           hour := presentUnless 31 h.toNat,
           minute := presentUnless 63 m.toNat,
           second := presentUnless 63 sec.toNat,
           tzOffset := (presentUnless 127 z.toNat).map fun (w : Nat) => ((w : Int) - 64) * 15,
           tzHour := (presentUnless 127 z.toNat).map fun (w : Nat) => (((w : Int) - 64) * 15).natAbs / 60,
           tzMinute := (presentUnless 127 z.toNat).map fun (w : Nat) => (((w : Int) - 64) * 15).natAbs % 60,
           millisecond := some (f.toNat / 1000),
           microsecond := some f.toNat,
           nanosecond := some (f.toNat * 1000) })))) ∧
  decodesTo [0xeb#8, 0xdf#8, 0x83#8, 0xa4#8, 0xc9#8, 0x91#8, 0x07#8, 0x89#8, 0x00#8]
    (.decoded .dtszUs
      { year := some 1983, month := some 1, day := some 15, hour := some 18, minute := some 25,
        second := some 12, tzOffset := some 60, tzHour := some 1, tzMinute := some 0,
        millisecond := some 123, microsecond := some 123456, nanosecond := some 123456000 }) ∧
  (∀ (s : State) (Y : BitVec 12) (M : BitVec 4) (D : BitVec 5) (h : BitVec 5) (m : BitVec 6) (sec : BitVec 6)
    (z : BitVec 7) (f : BitVec 30),
    s.op = .dec ∨ s.op = .streamDec →
    exec (.dtszNs Y M D h m sec z f) s = .next (s.withOut (examine
      [(.nanosecond, f.toNat, 1000000000, 1073741823), (.tz, z.toNat, 126, 126),
       (.second, sec.toNat, 61, 62), (.minute, m.toNat, 60, 62), (.hour, h.toNat, 24, 30),
       (.month, M.toNat, 12, 14)]
      (.decoded .dtszNs
         { year := presentUnless 4095 Y.toNat,
           month := (presentUnless 15 M.toNat).map (· + 1),
           day := (presentUnless 31 D.toNat).map (· + 1),
           hour := presentUnless 31 h.toNat,
           minute := presentUnless 63 m.toNat,
           second := presentUnless 63 sec.toNat,
           tzOffset := (presentUnless 127 z.toNat).map fun (w : Nat) => ((w : Int) - 64) * 15,
           tzHour := (presentUnless 127 z.toNat).map fun (w : Nat) => (((w : Int) - 64) * 15).natAbs / 60,
           tzMinute := (presentUnless 127 z.toNat).map fun (w : Nat) => (((w : Int) - 64) * 15).natAbs % 60,
           millisecond := some (f.toNat / 1000000),
           microsecond := some (f.toNat / 1000),
           nanosecond := some f.toNat })))) ∧
  decodesTo [0xf3#8, 0xdf#8, 0x83#8, 0xa4#8, 0xc9#8, 0x91#8, 0x07#8, 0x5b#8, 0xcd#8, 0x15#8]
    (.decoded .dtszNs
      { year := some 1983, month := some 1, day := some 15, hour := some 18, minute := some 25,
        second := some 12, tzOffset := some 60, tzHour := some 1, tzMinute := some 0,
        millisecond := some 123, microsecond := some 123456, nanosecond := some 123456789 })

/-! ### Dispatch, reserved tags, steps -/

/-- R170, R172, R173: `TAGLEN` ends with `InvalidTag` exactly when `0xA2 <= b <= 0xBF` and otherwise gives the
layout of the one dispatch function; the corner cases of R172.  Two clauses are the model's choice and no rule's: every
layout's instruction, at any operands, gives its own layout under `TAGLEN`, which has byte 0 only (DESIGN CHOICE,
notes/assumptions/18.md), and every reserved row, as an instruction, raises `InvalidTag` (DEDUCED,
notes/assumptions/17.md). -/
def Obligations.TaglenOnEveryByte : Prop :=
  (∀ s : State, s.op = .taglen →
    (0xA2 ≤ s.tagByte.toNat ∧ s.tagByte.toNat ≤ 0xBF → step s = .next (s.raise .invalidTag)) ∧
    (¬(0xA2 ≤ s.tagByte.toNat ∧ s.tagByte.toNat ≤ 0xBF) →
      ∃ l, tagDispatch s.tagByte = some l ∧ step s = .next (s.withOut (.tagged l)))) ∧
  (∀ (s : State) (i : Instr) (l : Lid), s.op = .taglen → i.lid = some l →
    exec i s = .next (s.withOut (.tagged l))) ∧
  (∀ (s : State) (i : Instr), s.op = .taglen → i.lid = none → exec i s = .next (s.raise .invalidTag)) ∧
  tagDispatch 0xA0#8 = some .t ∧ tagDispatch 0xA1#8 = some .t ∧
  tagDispatch 0xA2#8 = none ∧ tagDispatch 0xBF#8 = none ∧
  tagDispatch 0x00#8 = some .dt ∧ tagDispatch 0xFF#8 = some .dtszNone ∧
  tagDispatch 0x3F#8 = some .dt ∧ tagDispatch 0x40#8 = some .dtsMs ∧
  tagDispatch 0x9F#8 = some .d ∧ tagDispatch 0xC0#8 = some .dtz

/-- R66, R172: byte 0 from `0xA2` to `0xBF` is reserved tag space: a `TAGLEN` of it and a `DEC` of a value that begins with
it end with `InvalidTag`; the stream reader's decode of it does because its `TAGLEN` does (R41).  That such a byte decodes
to a reserved row, an instruction of one byte whose own effect is `InvalidTag` whatever its don't-care bits, is the
model's choice (DEDUCED, notes/assumptions/17.md). -/
def Obligations.ReservedRowsRaiseInvalidTag : Prop :=
  (∀ (s : State), s.op = .taglen ∨ s.op = .dec ∨ s.op = .streamDec →
    (∀ x, exec (.reserved1010001x x) s = .next (s.raise .invalidTag)) ∧
    (∀ x, exec (.reserved101001xx x) s = .next (s.raise .invalidTag)) ∧
    (∀ x, exec (.reserved10101xxx x) s = .next (s.raise .invalidTag)) ∧
    (∀ x, exec (.reserved1011xxxx x) s = .next (s.raise .invalidTag))) ∧
  (∀ (b : Byte) (bs : List Byte), 0xA2 ≤ b.toNat ∧ b.toNat ≤ 0xBF →
    ∃ i, i.lid = none ∧ encode i = [b] ∧ decode (b :: bs) = .ok (i, bs)) ∧
  (∀ s : State, s.op = .taglen → 0xA2 ≤ s.tagByte.toNat ∧ s.tagByte.toNat ≤ 0xBF →
    step s = .next (s.raise .invalidTag)) ∧
  (∀ s : State, s.op = .dec → 0 < s.decLen →
    0xA2 ≤ (s.decBytes.read 0).toNat ∧ (s.decBytes.read 0).toNat ≤ 0xBF →
    step s = .next (s.raise .invalidTag))

/-- The model's choice (notes/assumptions/17.md): asked to ENCODE, a reserved row, which has no layout, is refused by name; and
no step of `ENC` asks it: what `ENC` runs has one of the twelve layouts (R74, R95). -/
def Obligations.ReservedRowsAreNeverEncoded : Prop :=
  (∀ (s : State) (i : Instr), s.op = .enc → i.lid = none → exec i s = .refused .noLayout) ∧
  (∀ (s : State) (i : Instr), s.op = .enc → fetch s = .instr i → ∃ l, i.lid = some l)

/-- R10, R140, R180, R41: a step runs the decoded instruction.  `DEC`: when the presented bytes decode to
an instruction of the declared length, the step is `exec` of it.  `ENC`: when the selector
and the field codec succeed, it is `exec` of the layout with those wire values.  The stream reader: `exec`, then
the cursor settles.  Two clauses are the model's choice and no rule's: `TAGLEN` is `exec` of the instruction its
byte stands for, with zeros as placeholders for the wire values (DESIGN CHOICE, notes/assumptions/18.md), and a
reserved tag presented to `DEC` is an instruction of one byte (DEDUCED, notes/assumptions/17.md). -/
def Obligations.StepRunsDecodedInstruction : Prop :=
  (∀ (s : State) (i : Instr) (rest : List Byte), s.op = .dec →
    decode (s.decBytes.readBytes 0 (min s.decLen 10)) = .ok (i, rest) →
    i.lid = none ∨ s.decLen = i.length → step s = exec i s) ∧
  (∀ (s : State) (l : Lid) (wire : Wire), s.op = .enc → select s.encVreq s.slots.present = .ok l →
    fieldCodec codecConfig s.slots l = .ok wire → step s = exec (.ofWire l wire) s) ∧
  (∀ s : State, s.op = .taglen → step s = exec (.ofTag s.tagByte) s) ∧
  (∀ (s t : State) (i : Instr), s.op = .streamDec →
    decode (streamRead s.stream s.streamLen s.cursor i.length) = .ok (i, []) → exec i s = .next t →
    step s = .next (settleCursor t))

/-- The very next step after a word of the opcode table is presented runs the instruction the decoder reads from
it (how a program comes to run: notes/assumptions/4.md). -/
def Obligations.PresentedWordRunsNext : Prop :=
  ∀ (s : State) (nbits w : Nat), ∃ i, decodeTableWord nbits w = some i ∧
    step (s.withFetchWord nbits w) = exec i (s.withFetchWord nbits w)

/-- Every step answers a next state, whatever the ports hold.  R253 says of `ENC`, `TAGLEN` and `DEC` that each
terminates and that no input makes one hang.  Two parts are the model's choice: that `decode_from_stream` always
answers too, its source never blocking (DESIGN CHOICE, notes/assumptions/6.md; R253 excepts the blocking read),
and that an error is a next state and never a fault (DEDUCED, notes/assumptions/20.md). -/
def Obligations.EveryStepAnswers : Prop :=
  ∀ s : State, ∃ t, step s = .next t

/-! ### Frames -/

/-- R11, R31, R34: the frame of every instruction, under every operation.  When `exec` gives a next state, every
input port, both byte spaces byte by byte, the cursor and the model's counter are as before: an instruction writes
the outputs only.  That the ports hold their values is the model's choice (notes/assumptions/29.md).  The bytes
`ENC` stores are the `len` bytes of its layout on `enc_bytes`; every index from `len` up holds the zero filler (R142). -/
def Obligations.ExecFrame : Prop :=
  ∀ (i : Instr) (s t : State), exec i s = .next t →
    t.op = s.op ∧ t.encVreq = s.encVreq ∧ t.slots = s.slots ∧ t.decLen = s.decLen ∧
    t.tagByte = s.tagByte ∧ t.streamLen = s.streamLen ∧ t.cursor = s.cursor ∧ t.draws = s.draws ∧
    (∀ a, t.decBytes.read a = s.decBytes.read a) ∧
    (∀ a, t.stream.read a = s.stream.read a) ∧
    (∀ l buf, t.out = .encoded l buf → i.lid = some l ∧ ∀ a, l.len ≤ a → buf.read a = 0#8)

/-- R11, R42: the frame of a step.  No step changes a byte of either byte space; only the stream reader moves the
cursor, and only it draws a free value.  Two clauses are the model's choice: that the input ports hold their values
after the step (DESIGN CHOICE, notes/assumptions/29.md), and that after a failed `decode_from_stream`, where R43 leaves
the cursor unspecified, it is not before where it stood (93_implementation_defined.md U6; DEDUCED,
notes/assumptions/7.md).  The cursor never wraps (DESIGN CHOICE, notes/assumptions/30.md). -/
def Obligations.StepFrame : Prop :=
  ∀ s t : State, step s = .next t →
    t.op = s.op ∧ t.encVreq = s.encVreq ∧ t.slots = s.slots ∧ t.decLen = s.decLen ∧
    t.tagByte = s.tagByte ∧ t.streamLen = s.streamLen ∧
    t.decBytes = s.decBytes ∧ t.stream = s.stream ∧ s.cursor ≤ t.cursor ∧
    (s.op ≠ .streamDec → t.cursor = s.cursor ∧ t.draws = s.draws)

/-- R11, R37 (a): the result of an operation is a function of that operation's own inputs: two states that present
the same inputs, whatever else they hold, get the same outputs.  And no step reads the outputs of an earlier one,
so an operation after an error behaves as if the failed one had never been issued (R231). -/
def Obligations.OutputsDependOnInputsOnly : Prop :=
  (∀ s s' t t' : State, sameInputs s s' → step s = .next t → step s' = .next t' → t.out = t'.out) ∧
  (∀ (s : State) (o : Output), step (s.withOut o) = step s)

/-- R34: every operation of the codec is idempotent: repeating it with the same inputs gives the same result.  That the
state after a step presents those inputs again is the model's choice (notes/assumptions/29.md). -/
def Obligations.RepeatedOperationGivesSameResult : Prop :=
  ∀ s t : State, s.op ≠ .streamDec → step s = .next t → step t = .next t

/-! ### ENC -/

/-- R140: a step of `ENC` is the rule's pseudocode, `select`, `field_codec`, `pack`, `serialize`, with its errors. -/
def Obligations.EncStepRefinesPseudocode : Prop :=
  ∀ s : State, s.op = .enc → step s = .next (s.withOut
    (match encOp codecConfig s.encVreq s.slots with
     | .ok (l, bs) => .encoded l (portBuffer bs)
     | .error e => .failed e))

/-- R221: `UnsupportedType` is raised by `ENC` exactly when `enc_vreq` is 7 to 15, whatever the slots hold; it is
found before any slot is checked (R227). -/
def Obligations.UnsupportedTypeExactly : Prop :=
  ∀ s : State, s.op = .enc → (step s = .next (s.raise .unsupportedType) ↔ 7 ≤ s.encVreq.toNat)

/-- R96: an explicit family is used exactly as asked, whatever slots are present; the precision of an explicit DTS or
DTSZ is that of the most precise sub-second slot (R93), and the other families have none (R94). -/
def Obligations.ExplicitFamilyUsedAsAsked : Prop :=
  ∀ (fam : Family) (p : Field → Bool), ∃ l, select (familyRequest fam) p = .ok l ∧ l.family = fam ∧
    l.row.sub =
      if fam = .dts ∨ fam = .dtsz then
        if p .nanosecond then .ns else if p .microsecond then .us else if p .millisecond then .ms else .none
      else .none

/-- R92, R93, D12: with no family asked for, the inferred layout carries every supplied field (of several sub-second
fields the most precise), and no layout that does is shorter: "infers the smallest adequate variant" (R96). -/
def Obligations.InferenceIsSmallestAdequate : Prop :=
  ∀ p : Field → Bool, ∃ l, select 0 p = .ok l ∧ carriesAll p l ∧ ∀ l', carriesAll p l' → l.len ≤ l'.len

/-- R95, R114: a layout that is selected has a sub-second field only when that slot is present and no more precise one
is; every layout can be selected. -/
def Obligations.SelectedSubSecondIsPresent : Prop :=
  (∀ (vreq : BitVec 4) (p : Field → Bool) (l : Lid), select vreq p = .ok l →
    ∀ f ∈ l.fields, f.isSub = true →
      p f = true ∧ ∀ g, g.isSub = true → fieldIndex f < fieldIndex g → p g = false) ∧
  (∀ l : Lid, ∃ vreq p, select vreq p = .ok l)

/-- R97: the corner cases of the selector, line by line. -/
def Obligations.SelectorCornerCases : Prop :=
  select 0 (presentOnly []) = .ok .d ∧
  select 0 (presentOnly [.year]) = .ok .d ∧
  select 0 (presentOnly [.second]) = .ok .t ∧
  select 0 (presentOnly [.day, .minute]) = .ok .dt ∧
  select 0 (presentOnly [.year, .tz]) = .ok .dtz ∧
  select 0 (presentOnly [.tz]) = .ok .dtz ∧
  select 0 (presentOnly [.hour, .tz]) = .ok .dtz ∧
  select 0 (presentOnly [.millisecond]) = .ok .dtsMs ∧
  select 0 (presentOnly [.millisecond, .nanosecond]) = .ok .dtsNs ∧
  select 0 (presentOnly [.microsecond, .tz]) = .ok .dtszUs ∧
  select 5 (presentOnly [.year]) = .ok .dtsNone ∧
  select 5 (presentOnly [.year, .month, .day, .hour, .minute, .second, .millisecond]) = .ok .dtsMs ∧
  select 5 (presentOnly [.nanosecond, .tz]) = .ok .dtsNs ∧
  select 6 (presentOnly []) = .ok .dtszNone ∧
  select 1 (presentOnly [.hour]) = .ok .d ∧
  select 2 (presentOnly [.millisecond]) = .ok .t ∧
  (∀ p, select 7 p = .error .unsupportedType)

/-- R112, R114, R115, R116: with every present slot in its user range, `ENC` completes: it encodes an instruction of the
selected layout, each field holding the wire value of its slot (month and day minus one, the timezone divided by 15 plus
64, the sub-second value unchanged) or, for an absent slot, the sentinel of R111. -/
def Obligations.EncCompletesWithWireValues : Prop :=
  ∀ (s : State) (l : Lid), s.op = .enc → select s.encVreq s.slots.present = .ok l → s.slots.inRange →
    ∃ i : Instr, i.lid = some l ∧
      (∀ f ∈ l.fields, (Wire.get i.operands f : Int) = slotWire f (s.slots.get f)) ∧
      step s = .next (s.withOut (.encoded l (portBuffer (encode i))))

/-- R222, R227, R229, R117: with a known family, `ENC` ends with the `OutOfRange` of the first slot, in canonical order,
that is present and outside its user range, with the payload of R229, whether or not the layout carries that slot. -/
def Obligations.EncNamesFirstOffendingSlot : Prop :=
  ∀ (s : State) (f : Field) (v : Int), s.op = .enc → s.encVreq.toNat < 7 →
    s.slots.get f = some v → inUserRange f v = false →
    (∀ g w, fieldIndex g < fieldIndex f → s.slots.get g = some w → inUserRange g w = true) →
    step s = .next (s.raise (slotPayload f v))

/-- R143: the output of `ENC` is exactly the selected layout's length, and the layout comes from `enc_vreq` and the present
bits alone, never from field values: two calls with the same request and the same present slots give one length. -/
def Obligations.EncodedLengthFromSelection : Prop :=
  (∀ (s t : State) (l : Lid) (buf : Memory), s.op = .enc → step s = .next t → t.out = .encoded l buf →
    select s.encVreq s.slots.present = .ok l ∧ t.out.lenPort = some (BitVec.ofNat 4 l.len)) ∧
  (∀ (s s' t t' : State) (l l' : Lid) (buf buf' : Memory), s.op = .enc → s'.op = .enc →
    s.encVreq = s'.encVreq → (∀ f, s.slots.present f = s'.slots.present f) →
    step s = .next t → step s' = .next t' → t.out = .encoded l buf → t'.out = .encoded l' buf' →
    l = l' ∧ t.out.lenPort = t'.out.lenPort)

/-- R156 (a): for every `ENC` that succeeds, `TAGLEN` of the first byte gives the same layout and length. -/
def Obligations.TaglenAgreesWithEnc : Prop :=
  ∀ (s t : State) (l : Lid) (buf : Memory), s.op = .enc → step s = .next t → t.out = .encoded l buf →
    step { t with op := .taglen, tagByte := buf.read 0 } =
      .next { t with op := .taglen, tagByte := buf.read 0, out := .tagged l }

/-- R156 (b): the round trip of the machine.  For every `ENC` that succeeds, a `DEC` of its bytes succeeds with the same
layout; its result slots equal the input slots for every field the layout carries, are absent for every field it does not
carry, and the derived slots follow R124 and R125. -/
def Obligations.EncThenDecGivesSlotsBack : Prop :=
  ∀ (s t : State) (l : Lid) (buf : Memory), s.op = .enc → step s = .next t → t.out = .encoded l buf →
    ∃ r : Record,
      step { t with op := .dec, decLen := l.len, decBytes := buf } =
        .next { t with op := .dec, decLen := l.len, decBytes := buf, out := .decoded l r } ∧
      (∀ f ∈ l.fields, r.get f = s.slots.get f) ∧
      (∀ f, f ∉ l.fields → f.isSub = false → r.get f = none) ∧
      r.subSecondsFollow l.row.sub ∧ r.Ok l

/-- R156 (b), R5, D10: the round trip does not depend on the values this spec decides.  For every usable choice of the
ranges, the sentinels, the timezone step and the timezone bias, `DEC` of the bytes of `ENC` gives the slots back: those of
the fields the layout carries, and absent for the others.  The derived slots are those of R124 and R125: the three
sub-second slots all absent when the layout has no sub-second field, else the stored one and the two computed from it;
tz_hour and tz_minute present exactly when tz_offset is. -/
def Obligations.RoundTripForEveryConfig : Prop :=
  ∀ (c : Config) (vreq : BitVec 4) (slots : Slots) (l : Lid) (bs : List Byte), c.Valid →
    encOp c vreq slots = .ok (l, bs) →
    bs.length = l.len ∧ ∃ r, decOp c bs.length (portBuffer bs) = .ok (l, r) ∧
      (∀ f ∈ l.fields, r.get f = slots.get f) ∧
      (∀ f, f ∉ l.fields → f.isSub = false → r.get f = none) ∧
      r.subSecondsFollow l.row.sub ∧
      r.tzHour = r.tzOffset.map (fun o => o.natAbs / 60) ∧
      r.tzMinute = r.tzOffset.map (fun o => o.natAbs % 60)

/-! ### DEC -/

/-- R180: a step of `DEC` is the rule's pseudocode, length, tag, `deserialize`, `unpack`, inverse codec, with its errors. -/
def Obligations.DecStepRefinesPseudocode : Prop :=
  ∀ s : State, s.op = .dec → step s = .next (s.withOut
    (match decOp codecConfig s.decLen s.decBytes with
     | .ok (l, r) => .decoded l r
     | .error e => .failed e))

/-- R223, R228, R181: the order of `DEC`'s checks: no byte is `InvalidLength`; a reserved tag is `InvalidTag` at any
length; a length that is not the tag's is `InvalidLength`; at the tag's length the outcome is a record of that layout or an
`OutOfRange`. -/
def Obligations.DecChecksInOrder : Prop :=
  ∀ s : State, s.op = .dec →
    (s.decLen = 0 → step s = .next (s.raise .invalidLength)) ∧
    (0 < s.decLen → tagDispatch (s.decBytes.read 0) = none → step s = .next (s.raise .invalidTag)) ∧
    (∀ l, 0 < s.decLen → tagDispatch (s.decBytes.read 0) = some l →
      (s.decLen ≠ l.len → step s = .next (s.raise .invalidLength)) ∧
      (s.decLen = l.len →
        (∃ r, step s = .next (s.withOut (.decoded l r))) ∨
        ∃ f w lo hi, step s = .next (s.raise (.outOfRange f w lo hi))))

/-- Error vectors of the spec, sanity (R228; 95_test_vectors.md X27 to X53): priority and payload. -/
def Obligations.DecErrorVectors : Prop :=
  decodesTo [] (.failed .invalidLength) ∧
  decodesTo [0x8f#8, 0x7e#8] (.failed .invalidLength) ∧
  decodesTo [0x8f#8, 0x7e#8, 0x0e#8, 0x00#8] (.failed .invalidLength) ∧
  decodesTo [0xb0#8, 0x00#8, 0x00#8] (.failed .invalidTag) ∧
  decodesTo [0xbf#8] (.failed .invalidTag) ∧
  decodesTo (0xf0#8 :: List.replicate 10 0#8) (.failed .invalidLength) ∧
  decodesTo [0x80#8, 0x01#8, 0x80#8] (.failed (.outOfRange .month 12 0 11)) ∧
  decodesTo [0x80#8, 0x01#8, 0x80#8, 0x00#8] (.failed .invalidLength) ∧
  decodesTo [0xa1#8, 0x8f#8, 0xfd#8] (.failed (.outOfRange .second 61 0 60)) ∧
  decodesTo [0xdf#8, 0xff#8, 0xff#8, 0xff#8, 0xff#8, 0xfe#8] (.failed (.outOfRange .tz 126 0 125)) ∧
  decodesTo [0x4f#8, 0xff#8, 0xff#8, 0xff#8, 0xff#8, 0xff#8, 0xf0#8]
    (.failed (.outOfRange .millisecond 1023 0 999)) ∧
  decodesTo [0xe7#8, 0xff#8, 0xff#8, 0xff#8, 0xff#8, 0xff#8, 0xbe#8, 0x80#8]
    (.failed (.outOfRange .millisecond 1000 0 999))

/-- R199, R121, R76: `DEC` succeeds on exactly the legal values: a layout's instruction completes with a record if every
wire value is in range or the sentinel, every combination of present and absent fields included, and ends with `OutOfRange`
otherwise. -/
def Obligations.DecSucceedsExactlyOnLegalValues : Prop :=
  ∀ (s : State) (i : Instr) (l : Lid), s.op = .dec ∨ s.op = .streamDec → i.lid = some l →
    (i.wellFormed codecConfig = true → ∃ r, exec i s = .next (s.withOut (.decoded l r))) ∧
    (i.wellFormed codecConfig = false →
      ∃ (f : Field) (w : Nat), (f, w) ∈ i.operands ∧ (codecConfig.desc f).legal w = false ∧
        exec i s = .next (s.raise (.outOfRange f w (wireBounds f).1 (wireBounds f).2)))

/-- R24, R124, R125: every record a step gives has its values in the table's ranges, only slots of its layout, the
sub-second slots all absent or all present and related by truncation, and tz_hour and tz_minute present exactly when
tz_offset is. -/
def Obligations.DecodedRecordsAreConsistent : Prop :=
  ∀ (s t : State) (l : Lid) (r : Record), step s = .next t → t.out = .decoded l r → r.Ok l

/-- R198: for every `DEC` that succeeds on a buffer whose pad bits are zero, re-encoding the result as the explicit family of
its layout, with the sub-second slot of its precision only, reproduces the buffer. -/
def Obligations.DecThenEncReproducesBytes : Prop :=
  ∀ (s t : State) (l : Lid) (r : Record), s.op = .dec → step s = .next t → t.out = .decoded l r →
    deserialize (s.decBytes.readBytes 0 l.len) % 2 ^ l.row.padBits = 0 →
    ∃ buf : Memory,
      step { t with op := .enc, encVreq := familyRequest l.family, slots := r.toSlots l } =
        .next { t with op := .enc, encVreq := familyRequest l.family, slots := r.toSlots l,
                       out := .encoded l buf } ∧
      ∀ x, x < l.len → buf.read x = s.decBytes.read x

/-! ### The stream reader -/

/-- R41, R42: with the bytes of a legal value at the cursor, `decode_from_stream` gives its record and
leaves the cursor exactly at the first byte past it, the bytes of the stream untouched.  That a value counts as legal
whatever its pad bits hold is the spec's decision D15 (R67; notes/assumptions/15.md); that the cursor never wraps is the
model's choice (notes/assumptions/30.md). -/
def Obligations.StreamDecodeAdvancesPastValue : Prop :=
  ∀ (s : State) (i : Instr) (l : Lid), s.op = .streamDec → i.lid = some l →
    i.wellFormed codecConfig = true →
    decode (streamRead s.stream s.streamLen s.cursor l.len) = .ok (i, []) →
    ∃ r, exec i s = .next (s.withOut (.decoded l r)) ∧
      step s = .next ((s.withOut (.decoded l r)).withCursor (s.cursor + l.len))

/-- R42: repeated calls correctly decode concatenated values with arbitrary trailing data untouched.  The values are any
byte strings that `DEC`, given them whole, decodes, each with its layout and record.  As many calls as there are values give
exactly those layouts and records, in order, and leave the cursor just past the last one, none having drawn the free value of
a failure, with the trailing bytes left to read.  And every call that succeeds advances the cursor by exactly the length of
its layout.  Four things are the model's choice: that a call is one step of a source that does not block (DESIGN CHOICE,
notes/assumptions/6.md), that calls follow one another as steps because `op` holds its value (DESIGN CHOICE,
notes/assumptions/29.md), the counter `draws` (notes/assumptions/7.md), and that the cursor has no width and never wraps
(DESIGN CHOICE, notes/assumptions/30.md). -/
def Obligations.StreamWalksConcatenatedValues : Prop :=
  (∀ (vs : List (List Byte × Lid × Record)) (s : State) (trailing : List Byte), s.op = .streamDec →
    (∀ v ∈ vs, decodesTo v.1 (.decoded v.2.1 v.2.2)) →
    streamRead s.stream s.streamLen s.cursor (s.streamLen - s.cursor) =
      (vs.map (·.1)).flatten ++ trailing →
    ∃ t, stepsTo (vs.map fun v => .decoded v.2.1 v.2.2) s t ∧
      t.cursor = s.cursor + (vs.map (·.1)).flatten.length ∧ t.draws = s.draws ∧
      streamRead t.stream t.streamLen t.cursor (t.streamLen - t.cursor) = trailing) ∧
  (∀ (s t : State) (l : Lid) (r : Record), s.op = .streamDec → step s = .next t →
    t.out = .decoded l r → t.cursor = s.cursor + l.len)

/-- R41, R225: `decode_from_stream` ends with `ShortRead` exactly when the stream has no byte at the cursor, or fewer than the
layout its first byte selects is long; it never ends with `InvalidLength` or `UnsupportedType`. -/
def Obligations.ShortReadExactly : Prop :=
  ∀ s t : State, s.op = .streamDec → step s = .next t →
    (t.out = .failed .shortRead ↔
      s.streamLen ≤ s.cursor ∨
      ∃ l, tagDispatch (s.stream.read s.cursor) = some l ∧ s.streamLen - s.cursor < l.len) ∧
    t.out ≠ .failed .invalidLength ∧ t.out ≠ .failed .unsupportedType

/-- R43, U6: after a failed `decode_from_stream` the cursor is a free value not less than where it stood, a fresh one each time
(notes/assumptions/7.md; the statement holds whatever that value is).  The cursor never wraps (notes/assumptions/30.md). -/
def Obligations.FailedStreamDecodeLeavesCursorFree : Prop :=
  ∀ (s t : State) (e : ErrorKind), s.op = .streamDec → step s = .next t → t.out = .failed e →
    t.cursor = s.cursor + Config.freeCursorAdvance s.draws ∧ s.cursor ≤ t.cursor ∧ t.draws = s.draws + 1

/-! ### Ports, errors, reset, the invariant -/

/-- R126: no in-range value of a field equals its sentinel, and the three sub-second fields have none. -/
def Obligations.SentinelsAreDisjoint : Prop :=
  (∀ (f : Field) (n w : Nat), (codecConfig.desc f).sentinel = some n → w ≤ (codecConfig.desc f).max → w < n) ∧
  (∀ f : Field, (codecConfig.desc f).sentinel = none ↔ f.isSub = true) ∧ codecConfig.Valid

/-- R235, R16, R226: the error code of each kind, and what the ports of an erroring step hold: `ok` 0, the code, no data result, and
the four payload ports, which are values for `OutOfRange` only and then the error's.  The numbers are the spec's decision D5,
the absence of data its decision D19. -/
def Obligations.ErrorPorts : Prop :=
  (ErrorKind.code .unsupportedType = 1 ∧ (∀ f v lo hi, ErrorKind.code (.outOfRange f v lo hi) = 2) ∧
    ErrorKind.code .invalidLength = 3 ∧ ErrorKind.code .invalidTag = 4 ∧ ErrorKind.code .shortRead = 5) ∧
  (∀ (s : State) (e : ErrorKind),
    (s.raise e).out.ok = some false ∧ (s.raise e).out.err = some e.code ∧
    (s.raise e).out.lidPort = none ∧ (s.raise e).out.lenPort = none ∧
    (∀ i, (s.raise e).out.encByte i = none) ∧ (s.raise e).out.record = none ∧
    ((s.raise e).out.errField.isSome ↔ e.code = 2) ∧ ((s.raise e).out.errValue.isSome ↔ e.code = 2) ∧
    ((s.raise e).out.errMin.isSome ↔ e.code = 2) ∧ ((s.raise e).out.errMax.isSome ↔ e.code = 2)) ∧
  (∀ o : Output, (o.errField.isSome ↔ o.err = some 2) ∧ (o.errValue.isSome ↔ o.err = some 2) ∧
    (o.errMin.isSome ↔ o.err = some 2) ∧ (o.errMax.isSome ↔ o.err = some 2)) ∧
  (∀ (f : Field) (v lo hi : Int), Output.errField (.failed (.outOfRange f v lo hi)) = some (fieldIndex f) ∧
    Output.errValue (.failed (.outOfRange f v lo hi)) = some v ∧
    Output.errMin (.failed (.outOfRange f v lo hi)) = some lo ∧
    Output.errMax (.failed (.outOfRange f v lo hi)) = some hi)

/-- R16, R135: with inputs that fit their ports, what an `OutOfRange` reports fits the signed `IN_W` ports, but for one value: a
month or day slot at the most negative input reports one less (notes/assumptions/9.md). -/
def Obligations.ErrorPayloadFitsPorts : Prop :=
  ∀ (s t : State) (f : Field) (v lo hi : Int), s.portsFit codecConfig → step s = .next t →
    t.out = .failed (.outOfRange f v lo hi) →
    (-(2 ^ 31) ≤ lo ∧ lo < 2 ^ 31) ∧ (-(2 ^ 31) ≤ hi ∧ hi < 2 ^ 31) ∧ v < 2 ^ 31 ∧
    (-(2 ^ 31) ≤ v ∨ (v = -(2 ^ 31) - 1 ∧ (f = .month ∨ f = .day) ∧ s.slots.get f = some (-(2 ^ 31))))

/-- R23, R250: after reset no output port is a value.  That the ports then present no operation, and that a step without one
produces nothing, are the model's choices (notes/assumptions/3.md, 2.md). -/
def Obligations.ResetPresentsNothing : Prop :=
  State.reset.out = .noValue ∧ State.reset.out.ok = none ∧ State.reset.out.err = none ∧
  step State.reset = .next State.reset ∧
  (∀ s : State, s.op = .idle → step s = .next (s.withOut .noValue))

/-- The invariant holds at reset.  R23 gives the output, that no port is a value, and says of the inputs that they are
whatever the caller drives; the port, buffer and stream values that meet the invariant here are the model's choice
(DESIGN CHOICE, notes/assumptions/3.md). -/
def Obligations.InvariantHoldsAtReset : Prop := State.reset.Inv

/-- Every step keeps the invariant, from every state that meets it: both byte spaces in canonical form, the ten-byte port within
ten bytes (R18), an encoded value within its length and beginning with its layout's tag (R17, R156 a), a record consistent (R24),
an `OutOfRange` about a value that is out of range (R222). -/
def Obligations.EveryStepKeepsInvariant : Prop :=
  ∀ s t : State, s.Inv → step s = .next t → t.Inv

/-! ### Legal values, by DEC and by an instruction -/

/-- R180, R197, R199: a byte string that decodes to a well-formed instruction of a layout is decoded whole by `DEC`, and the
record is the one the instruction itself gives under `DEC` and under the stream reader.  That the pad bits of such a string
are free is the spec's decision D15, the ranges its decisions D6 to D10 (notes/assumptions/15.md, 13.md). -/
def Obligations.DecOfLegalBytesGivesInstructionsRecord : Prop :=
  ∀ (v : List Byte) (i : Instr) (l : Lid), decode v = .ok (i, []) → i.lid = some l →
    i.wellFormed codecConfig = true →
    ∃ r, decodesTo v (.decoded l r) ∧
      ∀ s : State, s.op = .dec ∨ s.op = .streamDec → exec i s = .next (s.withOut (.decoded l r))
end

