-- ==== Sys2Proof/Laws/Memory.lean ====
section
/-! SUPPORT. Byte spaces: read after write, and every write keeps the canonical form
(spec/20_memory.md R31). -/

namespace Sys2Proof.Machine

theorem Memory.wfFrom_mono {a b : Nat} (h : a ≤ b) :
    ∀ {m : Memory}, Memory.wfFrom b m = true → Memory.wfFrom a m = true
  | [], _ => rfl
  | (a', x) :: m, hm => by
    simp only [Memory.wfFrom, Bool.and_eq_true, decide_eq_true_eq] at hm ⊢
    exact ⟨⟨by omega, hm.1.2⟩, hm.2⟩

/-- Below its first possible address a canonical memory reads as 00. -/
theorem Memory.read_of_lt {a k : Nat} :
    ∀ {m : Memory}, Memory.wfFrom k m = true → a < k → m.read a = 0#8
  | [], _, _ => rfl
  | (a', x) :: m, hm, h => by
    simp only [Memory.wfFrom, Bool.and_eq_true, decide_eq_true_eq] at hm
    rw [Memory.read, if_neg (by omega)]
    exact Memory.read_of_lt hm.2 (Nat.lt_succ_of_le (by omega))

/-- A read after a write: the byte written at its address, every other byte as before. -/
theorem Memory.read_write {a : Nat} {b : Byte} (x : Nat) :
    ∀ {k : Nat} {m : Memory}, Memory.wfFrom k m = true →
      (m.write a b).read x = if x = a then b else m.read x
  | _, [], _ => by
    simp only [Memory.write]
    split <;> simp_all [Memory.read]
  | k, (a', b') :: m, hm => by
    simp only [Memory.wfFrom, Bool.and_eq_true, decide_eq_true_eq] at hm
    have hlow : ∀ y, y ≤ a' → Memory.read m y = 0#8 := fun y hy =>
      Memory.read_of_lt hm.2 (Nat.lt_succ_of_le hy)
    simp only [Memory.write]
    split
    · rename_i hlt
      split
      · rename_i hb
        by_cases hx : x = a
        · rw [if_pos hx, Memory.read, if_neg (by omega), hlow _ (by omega), hb]
        · rw [if_neg hx]
      · rw [Memory.read]
    · split
      · rename_i _ he
        by_cases hx : x = a
        · rw [if_pos hx]
          split
          · rename_i hb; rw [hlow _ (by omega), hb]
          · rw [Memory.read, if_pos hx]
        · have hx' : x ≠ a' := by omega
          rw [if_neg hx, Memory.read, if_neg hx']
          split
          · rfl
          · rw [Memory.read, if_neg hx]
      · rw [Memory.read, Memory.read_write x hm.2, Memory.read]
        by_cases hx : x = a'
        · rw [if_pos hx, if_pos hx, if_neg (by omega)]
        · rw [if_neg hx, if_neg hx]

theorem Memory.wfFrom_write {a : Nat} {b : Byte} :
    ∀ {k : Nat} {m : Memory}, Memory.wfFrom k m = true → k ≤ a →
      Memory.wfFrom k (m.write a b) = true
  | k, [], _, hk => by
    simp only [Memory.write]
    split <;> simp_all [Memory.wfFrom]
  | k, (a', b') :: m, hm, hk => by
    have hm' := hm
    simp only [Memory.wfFrom, Bool.and_eq_true, decide_eq_true_eq] at hm
    simp only [Memory.write]
    split
    · split
      · exact hm'
      · rename_i hb
        simp only [Memory.wfFrom, Bool.and_eq_true, decide_eq_true_eq]
        exact ⟨⟨hk, by simpa using hb⟩, ⟨by omega, hm.1.2⟩, hm.2⟩
    · split
      · split
        · exact Memory.wfFrom_mono (by omega) hm.2
        · rename_i _ he hb
          subst he
          simp only [Memory.wfFrom, Bool.and_eq_true, decide_eq_true_eq]
          exact ⟨⟨hk, by simpa using hb⟩, hm.2⟩
      · simp only [Memory.wfFrom, Bool.and_eq_true, decide_eq_true_eq]
        exact ⟨⟨hm.1.1, hm.1.2⟩, Memory.wfFrom_write hm.2 (by omega)⟩

/-- A write keeps the canonical form. -/
theorem Memory.wf_write {m : Memory} {a : Nat} {b : Byte} (h : m.wf = true) :
    (m.write a b).wf = true :=
  Memory.wfFrom_write h (Nat.zero_le _)

theorem Memory.wf_writeBytes :
    ∀ {bs : List Byte} {m : Memory} {a : Nat}, m.wf = true → (m.writeBytes a bs).wf = true
  | [], _, _, h => h
  | b :: bs, m, a, h =>
    Memory.wf_writeBytes (bs := bs) (m := Memory.write m a b) (Memory.wf_write h)

/-- A read after a run of writes: the byte of the run at its place, every other byte as before. -/
theorem Memory.read_writeBytes (x : Nat) :
    ∀ {bs : List Byte} {m : Memory} {a : Nat}, m.wf = true →
      (m.writeBytes a bs).read x = if a ≤ x ∧ x < a + bs.length then bs.getD (x - a) 0#8 else m.read x
  | [], m, a, _ => by
    rw [Memory.writeBytes, if_neg]
    simp only [List.length_nil]; omega
  | b :: bs, m, a, h => by
    rw [Memory.writeBytes, Memory.read_writeBytes x (Memory.wf_write h), Memory.read_write x h]
    simp only [List.length_cons]
    by_cases h1 : x = a
    · subst h1
      rw [if_neg (by omega), if_pos rfl, if_pos (by omega), Nat.sub_self]; rfl
    · by_cases h2 : a + 1 ≤ x ∧ x < a + 1 + bs.length
      · rw [if_pos h2, if_pos (by omega), show x - a = x - (a + 1) + 1 by omega]; rfl
      · rw [if_neg h2, if_neg h1, if_neg (by omega)]

theorem portBuffer_wf (bs : List Byte) : (portBuffer bs).wf = true :=
  Memory.wf_writeBytes rfl

/-- A port buffer reads as its value and, past it, as zero filler (R142). -/
theorem portBuffer_read (bs : List Byte) (x : Nat) : (portBuffer bs).read x = bs.getD x 0#8 := by
  unfold portBuffer
  rw [Memory.read_writeBytes x rfl]
  simp only [Nat.zero_le, true_and, Nat.zero_add, Nat.sub_zero, List.length_append,
    List.length_replicate]
  by_cases hx : x < bs.length
  · rw [if_pos (by omega)]
    simp [List.getD_eq_getElem?_getD, List.getElem?_append_left hx]
  · have : bs.getD x 0#8 = 0#8 := by simp [List.getD_eq_getElem?_getD, Nat.not_lt.mp hx]
    rw [this]
    split
    · simp only [List.getD_eq_getElem?_getD, List.getElem?_append_right (Nat.not_lt.mp hx)]
      rw [List.getElem?_replicate]; split <;> rfl
    · rfl

theorem Memory.length_readBytes (m : Memory) (a n : Nat) : (m.readBytes a n).length = n := by
  simp [Memory.readBytes]

/-- Reading back a port buffer gives the value. -/
theorem portBuffer_readBytes (bs : List Byte) : (portBuffer bs).readBytes 0 bs.length = bs := by
  apply List.ext_getElem
  · simp [Memory.readBytes]
  · intro i h1 h2
    simp [Memory.readBytes, portBuffer_read, h2]

theorem Memory.below_write {n a : Nat} {b : Byte} (ha : a < n ∨ b = 0#8) :
    ∀ {m : Memory}, m.below n = true → (m.write a b).below n = true
  | [], _ => by
    simp only [Memory.write]
    split <;> simp_all [Memory.below]
  | (a', b') :: m, h => by
    have h' := h
    simp only [Memory.below, List.all_cons, Bool.and_eq_true, decide_eq_true_eq] at h
    have ih := Memory.below_write ha (m := m) h.2
    simp only [Memory.write]
    split
    · split
      · exact h'
      · simp only [Memory.below, List.all_cons, Bool.and_eq_true, decide_eq_true_eq]
        exact ⟨ha.resolve_right ‹_›, h.1, h.2⟩
    · split
      · split
        · exact h.2
        simp only [Memory.below, List.all_cons, Bool.and_eq_true, decide_eq_true_eq]
        exact ⟨ha.resolve_right ‹_›, h.2⟩
      · simp only [Memory.below, List.all_cons, Bool.and_eq_true, decide_eq_true_eq]
        exact ⟨h.1, ih⟩

theorem Memory.below_writeBytes {n : Nat} :
    ∀ {bs : List Byte} {m : Memory} {a : Nat}, m.below n = true →
      (∀ i, n ≤ a + i → bs.getD i 0#8 = 0#8) → (m.writeBytes a bs).below n = true
  | [], _, _, h, _ => h
  | b :: bs, m, a, h, hz => by
    have hb : a < n ∨ b = 0#8 := by
      by_cases ha : a < n
      · exact Or.inl ha
      · exact Or.inr (by simpa using hz 0 (by omega))
    refine Memory.below_writeBytes (bs := bs) (m := Memory.write m a b) (Memory.below_write hb h)
      fun i hi => ?_
    simpa using hz (i + 1) (by omega)

/-- A port buffer lists no byte at or past the length of its value. -/
theorem portBuffer_below (bs : List Byte) : (portBuffer bs).below bs.length = true := by
  refine Memory.below_writeBytes rfl fun i hi => ?_
  have h : bs.length ≤ i := by omega
  rw [List.getD_eq_getElem?_getD, List.getElem?_append_right h, List.getElem?_replicate]
  split <;> rfl

end Sys2Proof.Machine
end

