-- ==== Sys2Proof/Laws/Operands.lean ====
section
/-! SUPPORT. What the checks of the field codec and of its inverse say (spec/41_field_codec.md R113,
R115, R119 to R121; spec/44_decoder.md R197). -/

namespace Sys2Proof

theorem FieldDesc.legal_iff {d : FieldDesc} {w : Nat} :
    d.legal w = true ↔ d.sentinel = some w ∨ (d.min ≤ w ∧ w ≤ d.max) := by
  simp only [FieldDesc.legal, Bool.or_eq_true, Bool.and_eq_true, decide_eq_true_eq, beq_iff_eq]

theorem Instr.wellFormed_iff {c : Config} {i : Instr} {l : Lid} (h : i.lid = some l) :
    i.wellFormed c = true ↔ ∀ p ∈ i.operands, (c.desc p.1).legal p.2 = true := by
  simp only [Instr.wellFormed, h, Option.isSome_some, Bool.true_and, List.all_eq_true]

namespace Machine

/-! ### The descriptor table of R111 -/

@[simp] theorem codecConfig_year : codecConfig.desc .year = ⟨0, 4094, some 4095⟩ := rfl
@[simp] theorem codecConfig_month : codecConfig.desc .month = ⟨0, 11, some 15⟩ := rfl
@[simp] theorem codecConfig_day : codecConfig.desc .day = ⟨0, 30, some 31⟩ := rfl
@[simp] theorem codecConfig_hour : codecConfig.desc .hour = ⟨0, 23, some 31⟩ := rfl
@[simp] theorem codecConfig_minute : codecConfig.desc .minute = ⟨0, 59, some 63⟩ := rfl
@[simp] theorem codecConfig_second : codecConfig.desc .second = ⟨0, 60, some 63⟩ := rfl
@[simp] theorem codecConfig_millisecond : codecConfig.desc .millisecond = ⟨0, 999, none⟩ := rfl
@[simp] theorem codecConfig_microsecond : codecConfig.desc .microsecond = ⟨0, 999999, none⟩ := rfl
@[simp] theorem codecConfig_nanosecond : codecConfig.desc .nanosecond = ⟨0, 999999999, none⟩ := rfl
@[simp] theorem codecConfig_tz : codecConfig.desc .tz = ⟨0, 125, some 127⟩ := rfl
@[simp] theorem codecConfig_tzStep : codecConfig.tzStep = 15 := rfl
@[simp] theorem codecConfig_tzBias : codecConfig.tzBias = 64 := rfl
@[simp] theorem codecConfig_tzMinOffset : tzMinOffset codecConfig = -960 := rfl
@[simp] theorem codecConfig_tzMaxOffset : tzMaxOffset codecConfig = 915 := rfl

/-! ### Encode direction -/

theorem slotOk_tz_iff {c : Config} {v : Int} :
    slotOk c .tz v = true ↔ tzMinOffset c ≤ v ∧ v ≤ tzMaxOffset c ∧ v % c.tzStep = 0 := by
  simp only [slotOk, Bool.and_eq_true, decide_eq_true_eq, beq_iff_eq, and_assoc]

theorem slotOk_iff {c : Config} {f : Field} {v : Int} (h : f ≠ .tz) :
    slotOk c f v = true ↔ ((c.desc f).min : Int) ≤ v - userBase f ∧ v - userBase f ≤ (c.desc f).max := by
  cases f <;>
    first
    | exact absurd rfl h
    | simp only [slotOk, Bool.and_eq_true, decide_eq_true_eq]

theorem slotError_eq_none_iff {c : Config} {f : Field} {v : Int} :
    slotError c f v = none ↔ slotOk c f v = true := by
  unfold slotError; split <;> simp_all

/-- No slot of the list fails its check. -/
theorem firstSlotError_eq_none_iff {c : Config} {s : Slots} :
    ∀ {fs : List Field}, firstSlotError c s fs = none ↔
      ∀ f ∈ fs, ∀ v, s.get f = some v → slotOk c f v = true
  | [] => by simp [firstSlotError]
  | f :: fs => by
    have ih := firstSlotError_eq_none_iff (c := c) (s := s) (fs := fs)
    rw [firstSlotError, List.forall_mem_cons, ← ih]
    cases hv : s.get f with
    | none => simp
    | some v =>
      rw [Option.bind_some]
      cases he : slotError c f v with
      | none => simp [slotError_eq_none_iff.mp he]
      | some e =>
        have : slotOk c f v ≠ true := fun h => by rw [slotError_eq_none_iff.mpr h] at he; cases he
        simp [this]

/-- The first slot of the list that fails its check gives the error. -/
theorem firstSlotError_append {c : Config} {s : Slots} {f : Field} {v : Int} {fs gs : List Field}
    (hfs : firstSlotError c s fs = none) (hv : s.get f = some v) (hbad : slotOk c f v = false) :
    firstSlotError c s (fs ++ f :: gs) = some (slotRangeError c f v) := by
  induction fs with
  | nil => simp [firstSlotError, hv, slotError, hbad]
  | cons g fs ih =>
    simp only [List.cons_append, firstSlotError] at hfs ⊢
    split at hfs
    · cases hfs
    · exact ih hfs

/-- An error of the field codec is that of a present slot that fails its check. -/
theorem firstSlotError_eq_some {c : Config} {s : Slots} {e : ErrorKind} :
    ∀ {fs : List Field}, firstSlotError c s fs = some e →
      ∃ f v, s.get f = some v ∧ slotOk c f v = false ∧ e = slotRangeError c f v
  | f :: fs, h => by
    rw [firstSlotError] at h
    split at h
    · rename_i e' he
      obtain ⟨v, hv, he⟩ := Option.bind_eq_some_iff.mp he
      unfold slotError at he
      split at he
      · cases he
      · rename_i hno
        cases h; cases he
        exact ⟨f, v, hv, by simpa using hno, rfl⟩
    · exact firstSlotError_eq_some h

/-! ### Decode direction -/

/-- Every wire value of the list passes its re-check. -/
theorem firstWireError_eq_none_iff {c : Config} :
    ∀ {ws : Wire}, firstWireError c ws = none ↔ ∀ p ∈ ws, (c.desc p.1).legal p.2 = true
  | [] => by simp [firstWireError]
  | (f, w) :: ws => by
    have ih := firstWireError_eq_none_iff (c := c) (ws := ws)
    rw [firstWireError, List.forall_mem_cons, ← ih]
    unfold wireError
    cases h : (c.desc f).legal w <;> simp

/-- An error of the inverse codec is that of a wire value of the list that fails its re-check. -/
theorem firstWireError_eq_some {c : Config} {e : ErrorKind} :
    ∀ {ws : Wire}, firstWireError c ws = some e →
      ∃ f w, (f, w) ∈ ws ∧ (c.desc f).legal w = false ∧
        e = .outOfRange f w (c.desc f).min (c.desc f).max
  | (f, w) :: ws, h => by
    rw [firstWireError] at h
    unfold wireError at h
    cases hl : (c.desc f).legal w with
    | false =>
      rw [hl] at h
      cases h
      exact ⟨f, w, by simp, hl, rfl⟩
    | true =>
      rw [hl] at h
      obtain ⟨g, x, hm, hg, he⟩ := firstWireError_eq_some (ws := ws) h
      exact ⟨g, x, List.mem_cons_of_mem _ hm, hg, he⟩

/-- The inverse codec gives a record exactly when every wire value is legal. -/
theorem inverseCodec_eq_ok_iff {c : Config} {l : Lid} {ws : Wire} {r : Record} :
    inverseCodec c l ws = .ok r ↔
      (∀ p ∈ ws, (c.desc p.1).legal p.2 = true) ∧ r = recordOf c l.row.sub ws := by
  have h := firstWireError_eq_none_iff (c := c) (ws := ws.reverse)
  simp only [List.mem_reverse] at h
  rw [← h]
  unfold inverseCodec
  split <;> rename_i he
  · simp [he]
  · simp [he, eq_comm]

/-- Otherwise it reports a wire value that is not. -/
theorem inverseCodec_eq_error {c : Config} {l : Lid} {ws : Wire} {e : ErrorKind}
    (h : inverseCodec c l ws = .error e) :
    ∃ f w, (f, w) ∈ ws ∧ (c.desc f).legal w = false ∧
      e = .outOfRange f w (c.desc f).min (c.desc f).max := by
  unfold inverseCodec at h
  split at h
  · rename_i he
    cases h
    obtain ⟨f, w, hm, hw⟩ := firstWireError_eq_some he
    exact ⟨f, w, List.mem_reverse.mp hm, hw⟩
  · cases h

end Machine

end Sys2Proof
end

