-- ==== Sys2Proof/Laws/Wire.lean ====
section
/-! SUPPORT. The packer against the unpacker, and the wire values of an instruction (spec/42_encoder.md
R141, spec/44_decoder.md R183). -/

namespace Sys2Proof

@[simp] theorem length_serialize (W L : Nat) : (serialize W L).length = L := by
  simp [serialize]

theorem and_mask (x n : Nat) : x &&& mask n = x % 2 ^ n := Nat.and_two_pow_sub_one_eq_mod x n

theorem shiftLeft_or_eq_add {v n : Nat} (h : v < 2 ^ n) (a : Nat) : (a <<< n) ||| v = a * 2 ^ n + v := by
  rw [Nat.shiftLeft_eq, Nat.mul_comm, Nat.two_pow_add_eq_or_of_lt h]

/-! ### Lists of wire values -/

theorem Wire.get_map (g : Field → Nat) (f : Field) :
    ∀ fs : List Field, f ∈ fs → Wire.get (fs.map fun f => (f, g f)) f = g f
  | [], h => by simp at h
  | e :: fs, h => by
    simp only [List.map_cons, Wire.get]
    split
    · rename_i he; rw [he]
    · rename_i he
      exact Wire.get_map g f fs ((List.mem_cons.mp h).resolve_left fun h' => he h'.symm)

theorem Wire.find?_map (g : Field → Nat) (f : Field) :
    ∀ fs : List Field, Wire.find? (fs.map fun f => (f, g f)) f = if f ∈ fs then some (g f) else none
  | [] => by simp [Wire.find?]
  | e :: fs => by
    simp only [List.map_cons, Wire.find?]
    by_cases he : e = f
    · subst he; simp
    · rw [if_neg he, Wire.find?_map g f fs]
      simp [Ne.symm he]

/-! ### unpack after pack -/

/-- The walk of the unpacker undoes the loop of the packer. -/
theorem unpackFields_pack (g : Field → Nat) (acc : Nat) :
    ∀ rs : List Field, (∀ f ∈ rs, g f < 2 ^ f.width) →
      unpackFields rs (rs.reverse.foldl (fun acc f => (acc <<< f.width) ||| g f) acc) =
        rs.map fun f => (f, g f)
  | [], _ => rfl
  | f :: rs, h => by
    have hf : g f < 2 ^ f.width := h f (by simp)
    simp only [List.reverse_cons, List.foldl_append, List.foldl_cons, List.foldl_nil,
      unpackFields, List.map_cons, shiftLeft_or_eq_add hf, and_mask, Nat.shiftRight_eq_div_pow]
    have h1 : ∀ A : Nat, (A * 2 ^ f.width + g f) % 2 ^ f.width = g f := fun A => by
      rw [Nat.mul_comm, Nat.mul_add_mod, Nat.mod_eq_of_lt hf]
    have h2 : ∀ A : Nat, (A * 2 ^ f.width + g f) / 2 ^ f.width = A := fun A => by
      rw [Nat.mul_comm, Nat.mul_add_div (Nat.two_pow_pos _), Nat.div_eq_of_lt hf, Nat.add_zero]
    rw [h1, h2, unpackFields_pack g acc rs fun f hf => h f (by simp [hf])]

/-- `unpack` undoes `pack` on wire values that fit their widths. -/
theorem unpack_pack {l : Lid} {w : Wire} (h : ∀ f ∈ l.fields, w.get f < 2 ^ f.width) :
    unpack l (pack l w) = l.fields.map fun f => (f, w.get f) := by
  have h' := unpackFields_pack w.get ((0 <<< l.row.tagBits) ||| l.row.tagValue) l.fields.reverse
    (by simpa using h)
  simp only [List.reverse_reverse] at h'
  simp only [unpack, pack, Nat.shiftLeft_shiftRight]
  rw [h', List.map_reverse, List.reverse_reverse]

/-! ### Instructions and their wire values -/

/-- Every operand of an instruction fits its field's width. -/
theorem Instr.get_operands_lt (i : Instr) (f : Field) : Wire.get i.operands f < 2 ^ f.width := by
  cases i <;> cases f <;>
    simp only [Instr.operands, Wire.get, Field.width, reduceCtorEq, if_true, if_false] <;>
    first | exact BitVec.isLt _ | decide

/-- The operands of an instruction, by the fields of its layout. -/
theorem Instr.operands_eq {i : Instr} {l : Lid} (h : i.lid = some l) :
    (l.fields.map fun f => (f, Wire.get i.operands f)) = i.operands := by
  cases i <;> simp only [Instr.lid, Option.some.injEq, reduceCtorEq] at h <;> subst h <;> rfl

/-- The instruction of a layout with the wire values of an instruction of that layout. -/
theorem Instr.ofWire_operands {i : Instr} {l : Lid} (h : i.lid = some l) :
    Instr.ofWire l i.operands = i := by
  cases i <;> simp only [Instr.lid, Option.some.injEq, reduceCtorEq] at h <;> subst h <;>
    simp [Instr.ofWire, Instr.operands, Wire.get]

@[simp] theorem Instr.lid_ofWire (l : Lid) (w : Wire) : (Instr.ofWire l w).lid = some l := by
  cases l <;> rfl

/-- The operands of the instruction of a layout with given wire values that fit. -/
theorem Instr.operands_ofWire {l : Lid} {w : Wire} (h : ∀ f ∈ l.fields, w.get f < 2 ^ f.width) :
    (Instr.ofWire l w).operands = l.fields.map fun f => (f, w.get f) := by
  cases l <;>
    simp only [Lid.fields, Lid.row, Precision.field, if_true, if_false, List.append_nil,
      List.nil_append, List.cons_append, List.forall_mem_cons, List.map_cons, List.map_nil,
      Bool.false_eq_true, Field.width] at h ⊢ <;>
    simp [Instr.ofWire, Instr.operands] <;> omega

/-- The head of a decode that consumes a layout's bytes. -/
theorem decode_append {b : Byte} {bs rest : List Byte} {l : Lid} (hb : tagDispatch b = some l)
    (hl : (b :: bs).length = l.len) :
    decode ((b :: bs) ++ rest) = .ok (.ofWire l (unpack l (deserialize (b :: bs))), rest) := by
  have hn : ¬ (b :: (bs ++ rest)).length < l.len := by
    rw [← hl]; simp
  rw [List.cons_append, decode, hb]
  simp only [hn, if_false]
  rw [← List.cons_append, ← hl, List.take_left, List.drop_left]

/-! ### The tag of a packed word -/

/-- The loop of the packer: what it started from, above the widths, and the fields below. -/
theorem foldl_pack (g : Field → Nat) :
    ∀ (fs : List Field) (acc : Nat), (∀ f ∈ fs, g f < 2 ^ f.width) →
      ∃ r, r < 2 ^ (fs.map Field.width).sum ∧
        fs.foldl (fun acc f => (acc <<< f.width) ||| g f) acc = acc * 2 ^ (fs.map Field.width).sum + r
  | [], acc, _ => ⟨0, by simp, by simp⟩
  | f :: fs, acc, h => by
    obtain ⟨r, hr, he⟩ := foldl_pack g fs ((acc <<< f.width) ||| g f) fun e he => h e (by simp [he])
    have hf : g f < 2 ^ f.width := h f (by simp)
    refine ⟨g f * 2 ^ (fs.map Field.width).sum + r, ?_, ?_⟩
    · rw [List.map_cons, List.sum_cons, Nat.pow_add]
      calc g f * 2 ^ (fs.map Field.width).sum + r
          < g f * 2 ^ (fs.map Field.width).sum + 2 ^ (fs.map Field.width).sum := by omega
        _ = (g f + 1) * 2 ^ (fs.map Field.width).sum := by ring
        _ ≤ 2 ^ f.width * 2 ^ (fs.map Field.width).sum := Nat.mul_le_mul_right _ hf
    · rw [List.foldl_cons, he, shiftLeft_or_eq_add hf, List.map_cons, List.sum_cons, Nat.pow_add]
      ring

/-- A packed word: tag, fields, zero pad bits (R50). -/
theorem pack_eq {l : Lid} {w : Wire} (h : ∀ f ∈ l.fields, w.get f < 2 ^ f.width) :
    ∃ r, r < 2 ^ (l.fields.map Field.width).sum ∧
      pack l w = (l.row.tagValue * 2 ^ (l.fields.map Field.width).sum + r) * 2 ^ l.row.padBits := by
  obtain ⟨r, hr, he⟩ := foldl_pack w.get l.fields ((0 <<< l.row.tagBits) ||| l.row.tagValue) h
  exact ⟨r, hr, by rw [pack, he, Nat.shiftLeft_eq, Nat.zero_shiftLeft, Nat.zero_or]⟩

theorem Lid.bits (l : Lid) :
    l.row.tagBits + (l.fields.map Field.width).sum + l.row.padBits = 8 * l.len := by
  cases l <;> rfl

/-- The tag is left when everything below it is shifted out. -/
theorem pack_shiftRight {l : Lid} {w : Wire} (h : ∀ f ∈ l.fields, w.get f < 2 ^ f.width) :
    pack l w >>> (8 * l.len - l.row.tagBits) = l.row.tagValue := by
  obtain ⟨r, hr, he⟩ := pack_eq h
  have hb := l.bits
  rw [he, show 8 * l.len - l.row.tagBits = l.row.padBits + (l.fields.map Field.width).sum by omega,
    Nat.shiftRight_add, Nat.shiftRight_eq_div_pow, Nat.shiftRight_eq_div_pow,
    Nat.mul_div_cancel _ (Nat.two_pow_pos _), Nat.mul_comm, Nat.mul_add_div (Nat.two_pow_pos _),
    Nat.div_eq_of_lt hr, Nat.add_zero]

theorem pack_lt {l : Lid} {w : Wire} (h : ∀ f ∈ l.fields, w.get f < 2 ^ f.width) :
    pack l w < 2 ^ (8 * l.len) := by
  have h1 := pack_shiftRight h
  have h2 : l.row.tagValue < 2 ^ l.row.tagBits := by cases l <;> decide
  have hb := l.bits
  rw [Nat.shiftRight_eq_div_pow] at h1
  rw [show 8 * l.len = l.row.tagBits + (8 * l.len - l.row.tagBits) by omega, Nat.pow_add]
  exact Nat.lt_mul_of_div_lt (h1 ▸ h2) (Nat.two_pow_pos _)

/-- The dispatcher finds the layout whose tag a byte begins with. -/
theorem tagDispatch_of_tag {b : Byte} {l : Lid}
    (h : b.toNat >>> (8 - l.row.tagBits) = l.row.tagValue) : tagDispatch b = some l := by
  have key : ∀ l : Lid, ∀ b : Byte, b.toNat >>> (8 - l.row.tagBits) = l.row.tagValue →
      tagDispatch b = some l := by
    intro l; cases l <;> decide
  exact key l b h

/-- The first byte of a word of a layout's length that begins with its tag. -/
theorem tagDispatch_head {W : Nat} {l : Lid} (hW : W < 2 ^ (8 * l.len))
    (h : W >>> (8 * l.len - l.row.tagBits) = l.row.tagValue) :
    tagDispatch (BitVec.ofNat 8 (W >>> (8 * (l.len - 1)))) = some l := by
  have hl : 1 ≤ l.len ∧ l.row.tagBits ≤ 8 := by cases l <;> decide
  refine tagDispatch_of_tag ?_
  have hlt : W >>> (8 * (l.len - 1)) < 2 ^ 8 := by
    rw [Nat.shiftRight_eq_div_pow, Nat.div_lt_iff_lt_mul (Nat.two_pow_pos _), ← Nat.pow_add,
      show 8 + 8 * (l.len - 1) = 8 * l.len by omega]
    exact hW
  rw [BitVec.toNat_ofNat, Nat.mod_eq_of_lt hlt, ← Nat.shiftRight_add, ← h]
  congr 1; omega

/-- The bytes of a word, the first one apart. -/
theorem serialize_eq_cons (W : Nat) {L : Nat} (h : 1 ≤ L) :
    serialize W L = BitVec.ofNat 8 (W >>> (8 * (L - 1))) :: (serialize W L).tail := by
  obtain ⟨n, rfl⟩ : ∃ n, L = n + 1 := ⟨L - 1, by omega⟩
  simp [serialize, List.range_succ_eq_map]

theorem Lid.len_pos (l : Lid) : 1 ≤ l.len := by cases l <;> decide

end Sys2Proof
end

