-- ==== Sys2Proof/Laws/PerInstr.lean ====
section
/-! SUPPORT. Facts about every instruction as syntax, one lemma per constructor. -/

namespace Sys2Proof.Laws.EncodedForm

/-- The encoding of an instruction has the length of its layout (one byte for a reserved row) and begins
with a byte whose dispatch is the instruction's layout (R64, R66, R68). -/
def Statement (i : Instr) : Prop :=
  (encode i).length = i.length ∧ ∃ b bs, encode i = b :: bs ∧ tagDispatch b = i.lid

/-- The case of a layout. -/
theorem of_layout {i : Instr} {l : Lid} (h : i.lid = some l) : Statement i := by
  have hw : ∀ f ∈ l.fields, Wire.get i.operands f < 2 ^ f.width := fun f _ => i.get_operands_lt f
  have he : encode i = serialize (pack l i.operands) l.len := by rw [encode, h]
  refine ⟨by rw [he, length_serialize, Instr.length, h], _, _, he.trans (serialize_eq_cons _ l.len_pos), ?_⟩
  rw [tagDispatch_head (pack_lt hw) (pack_shiftRight hw), h]

theorem d (year : BitVec 12) (month : BitVec 4) (day : BitVec 5) :
    Statement (.d year month day) := of_layout rfl

theorem t (hour : BitVec 5) (minute : BitVec 6) (second : BitVec 6) :
    Statement (.t hour minute second) := of_layout rfl

theorem dt (year : BitVec 12) (month : BitVec 4) (day : BitVec 5) (hour : BitVec 5)
    (minute : BitVec 6) (second : BitVec 6) :
    Statement (.dt year month day hour minute second) := of_layout rfl

theorem dtz (year : BitVec 12) (month : BitVec 4) (day : BitVec 5) (hour : BitVec 5)
    (minute : BitVec 6) (second : BitVec 6) (tz : BitVec 7) :
    Statement (.dtz year month day hour minute second tz) := of_layout rfl

theorem dtsNone (year : BitVec 12) (month : BitVec 4) (day : BitVec 5) (hour : BitVec 5)
    (minute : BitVec 6) (second : BitVec 6) :
    Statement (.dtsNone year month day hour minute second) := of_layout rfl

theorem dtsMs (year : BitVec 12) (month : BitVec 4) (day : BitVec 5) (hour : BitVec 5)
    (minute : BitVec 6) (second : BitVec 6) (millisecond : BitVec 10) :
    Statement (.dtsMs year month day hour minute second millisecond) := of_layout rfl

theorem dtsUs (year : BitVec 12) (month : BitVec 4) (day : BitVec 5) (hour : BitVec 5)
    (minute : BitVec 6) (second : BitVec 6) (microsecond : BitVec 20) :
    Statement (.dtsUs year month day hour minute second microsecond) := of_layout rfl

theorem dtsNs (year : BitVec 12) (month : BitVec 4) (day : BitVec 5) (hour : BitVec 5)
    (minute : BitVec 6) (second : BitVec 6) (nanosecond : BitVec 30) :
    Statement (.dtsNs year month day hour minute second nanosecond) := of_layout rfl

theorem dtszNone (year : BitVec 12) (month : BitVec 4) (day : BitVec 5) (hour : BitVec 5)
    (minute : BitVec 6) (second : BitVec 6) (tz : BitVec 7) :
    Statement (.dtszNone year month day hour minute second tz) := of_layout rfl

theorem dtszMs (year : BitVec 12) (month : BitVec 4) (day : BitVec 5) (hour : BitVec 5)
    (minute : BitVec 6) (second : BitVec 6) (tz : BitVec 7) (millisecond : BitVec 10) :
    Statement (.dtszMs year month day hour minute second tz millisecond) := of_layout rfl

theorem dtszUs (year : BitVec 12) (month : BitVec 4) (day : BitVec 5) (hour : BitVec 5)
    (minute : BitVec 6) (second : BitVec 6) (tz : BitVec 7) (microsecond : BitVec 20) :
    Statement (.dtszUs year month day hour minute second tz microsecond) := of_layout rfl

theorem dtszNs (year : BitVec 12) (month : BitVec 4) (day : BitVec 5) (hour : BitVec 5)
    (minute : BitVec 6) (second : BitVec 6) (tz : BitVec 7) (nanosecond : BitVec 30) :
    Statement (.dtszNs year month day hour minute second tz nanosecond) := of_layout rfl

theorem reserved1010001x (x : BitVec 1) : Statement (.reserved1010001x x) :=
  ⟨rfl, _, _, rfl, by revert x; decide⟩

theorem reserved101001xx (x : BitVec 2) : Statement (.reserved101001xx x) :=
  ⟨rfl, _, _, rfl, by revert x; decide⟩

theorem reserved10101xxx (x : BitVec 3) : Statement (.reserved10101xxx x) :=
  ⟨rfl, _, _, rfl, by revert x; decide⟩

theorem reserved1011xxxx (x : BitVec 4) : Statement (.reserved1011xxxx x) :=
  ⟨rfl, _, _, rfl, by revert x; decide⟩

end Sys2Proof.Laws.EncodedForm
end

