-- ==== Sys2Proof/Laws/State.lean ====
section
/-! SUPPORT. One lemma per field per update of the state, all true by definition. -/

namespace Sys2Proof.Machine

section
variable (s : State) (o : Output) (e : ErrorKind) (n : Nat)

@[simp] theorem State.withOut_op : (s.withOut o).op = s.op := rfl
@[simp] theorem State.withOut_encVreq : (s.withOut o).encVreq = s.encVreq := rfl
@[simp] theorem State.withOut_slots : (s.withOut o).slots = s.slots := rfl
@[simp] theorem State.withOut_decLen : (s.withOut o).decLen = s.decLen := rfl
@[simp] theorem State.withOut_decBytes : (s.withOut o).decBytes = s.decBytes := rfl
@[simp] theorem State.withOut_tagByte : (s.withOut o).tagByte = s.tagByte := rfl
@[simp] theorem State.withOut_stream : (s.withOut o).stream = s.stream := rfl
@[simp] theorem State.withOut_streamLen : (s.withOut o).streamLen = s.streamLen := rfl
@[simp] theorem State.withOut_cursor : (s.withOut o).cursor = s.cursor := rfl
@[simp] theorem State.withOut_draws : (s.withOut o).draws = s.draws := rfl
@[simp] theorem State.withOut_out : (s.withOut o).out = o := rfl

@[simp] theorem State.withCursor_op : (s.withCursor n).op = s.op := rfl
@[simp] theorem State.withCursor_encVreq : (s.withCursor n).encVreq = s.encVreq := rfl
@[simp] theorem State.withCursor_slots : (s.withCursor n).slots = s.slots := rfl
@[simp] theorem State.withCursor_decLen : (s.withCursor n).decLen = s.decLen := rfl
@[simp] theorem State.withCursor_decBytes : (s.withCursor n).decBytes = s.decBytes := rfl
@[simp] theorem State.withCursor_tagByte : (s.withCursor n).tagByte = s.tagByte := rfl
@[simp] theorem State.withCursor_stream : (s.withCursor n).stream = s.stream := rfl
@[simp] theorem State.withCursor_streamLen : (s.withCursor n).streamLen = s.streamLen := rfl
@[simp] theorem State.withCursor_cursor : (s.withCursor n).cursor = n := rfl
@[simp] theorem State.withCursor_draws : (s.withCursor n).draws = s.draws := rfl
@[simp] theorem State.withCursor_out : (s.withCursor n).out = s.out := rfl

@[simp] theorem State.withDraws_op : (s.withDraws n).op = s.op := rfl
@[simp] theorem State.withDraws_encVreq : (s.withDraws n).encVreq = s.encVreq := rfl
@[simp] theorem State.withDraws_slots : (s.withDraws n).slots = s.slots := rfl
@[simp] theorem State.withDraws_decLen : (s.withDraws n).decLen = s.decLen := rfl
@[simp] theorem State.withDraws_decBytes : (s.withDraws n).decBytes = s.decBytes := rfl
@[simp] theorem State.withDraws_tagByte : (s.withDraws n).tagByte = s.tagByte := rfl
@[simp] theorem State.withDraws_stream : (s.withDraws n).stream = s.stream := rfl
@[simp] theorem State.withDraws_streamLen : (s.withDraws n).streamLen = s.streamLen := rfl
@[simp] theorem State.withDraws_cursor : (s.withDraws n).cursor = s.cursor := rfl
@[simp] theorem State.withDraws_draws : (s.withDraws n).draws = n := rfl
@[simp] theorem State.withDraws_out : (s.withDraws n).out = s.out := rfl

@[simp] theorem State.raise_op : (s.raise e).op = s.op := rfl
@[simp] theorem State.raise_encVreq : (s.raise e).encVreq = s.encVreq := rfl
@[simp] theorem State.raise_slots : (s.raise e).slots = s.slots := rfl
@[simp] theorem State.raise_decLen : (s.raise e).decLen = s.decLen := rfl
@[simp] theorem State.raise_decBytes : (s.raise e).decBytes = s.decBytes := rfl
@[simp] theorem State.raise_tagByte : (s.raise e).tagByte = s.tagByte := rfl
@[simp] theorem State.raise_stream : (s.raise e).stream = s.stream := rfl
@[simp] theorem State.raise_streamLen : (s.raise e).streamLen = s.streamLen := rfl
@[simp] theorem State.raise_cursor : (s.raise e).cursor = s.cursor := rfl
@[simp] theorem State.raise_draws : (s.raise e).draws = s.draws := rfl
@[simp] theorem State.raise_out : (s.raise e).out = .failed e := rfl

@[simp] theorem State.withOut_withOut (o' : Output) : (s.withOut o).withOut o' = s.withOut o' := rfl

@[simp] theorem State.withOut_self : s.withOut s.out = s := rfl

theorem State.raise_eq : s.raise e = s.withOut (.failed e) := rfl

end

end Sys2Proof.Machine
end

