-- ==== Sys2Proof/Laws/Step.lean ====
section
/-! SUPPORT. Everything an instruction and a step can do, said once (spec/10_state.md R10, R11). -/

namespace Sys2Proof.Machine

/-- What a layout puts on the outputs. -/
def layoutOutput (l : Lid) (wire : Wire) : Op → Output
  | .idle => .noValue
  | .enc => .encoded l (portBuffer (serialize (pack l wire) l.len))
  | .taglen => .tagged l
  | .dec | .streamDec =>
    match inverseCodec codecConfig l wire with
    | .error e => .failed e
    | .ok r => .decoded l r

/-- A layout always answers, and changes the outputs only. -/
theorem runLayout_eq (l : Lid) (wire : Wire) (s : State) :
    runLayout l wire s = .next (s.withOut (layoutOutput l wire s.op)) := by
  unfold runLayout layoutOutput
  cases s.op <;> simp only <;> cases inverseCodec codecConfig l wire <;> rfl

/-- The meaning of an instruction is that of its layout with its operands, or of a reserved row. -/
theorem exec_eq (i : Instr) (s : State) :
    exec i s = match i.lid with
      | some l => runLayout l i.operands s
      | none => runReserved s := by
  cases i <;> rfl

theorem exec_layout {i : Instr} {l : Lid} (h : i.lid = some l) (s : State) :
    exec i s = .next (s.withOut (layoutOutput l i.operands s.op)) := by
  rw [exec_eq, h]; exact runLayout_eq _ _ _

theorem exec_reserved {i : Instr} (h : i.lid = none) (s : State) : exec i s = runReserved s := by
  rw [exec_eq, h]

/-- A reserved row away from `ENC`. -/
theorem exec_reserved_raise {i : Instr} (h : i.lid = none) {s : State}
    (hop : s.op = .taglen ∨ s.op = .dec ∨ s.op = .streamDec) : exec i s = .next (s.raise .invalidTag) := by
  rw [exec_reserved h]
  rcases hop with hop | hop | hop <;> simp [runReserved, hop]

/-- Everything `exec` can do when it answers: new outputs and nothing else. -/
theorem exec_next {i : Instr} {s t : State} (h : exec i s = .next t) : ∃ o, t = s.withOut o := by
  cases hl : i.lid with
  | some l => rw [exec_layout hl] at h; exact ⟨_, (Host.Outcome.next.inj h).symm⟩
  | none =>
    rw [exec_reserved hl] at h
    unfold runReserved at h
    split at h <;> cases h <;> exact ⟨_, rfl⟩

/-- `ENC` comes to a layout's instruction, never to a reserved row. -/
theorem lid_of_fetchEnc {s : State} {i : Instr} (h : fetchEnc s = .instr i) : ∃ l, i.lid = some l := by
  unfold fetchEnc at h
  split at h
  · cases h
  · split at h
    · cases h
    · cases h; exact ⟨_, Instr.lid_ofWire _ _⟩

@[simp] theorem retire_of_ne {s : State} (h : s.op ≠ .streamDec) : retire s = s := by
  unfold retire; split
  · contradiction
  · rfl

/-- Everything a step can do when it answers: new outputs, and the cursor settled if the operation was the
stream reader's own. -/
theorem step_next {s t : State} (h : step s = .next t) :
    (s.op = .idle ∧ t = s.withOut .noValue) ∨
    (∃ e, fetch s = .error e ∧ t = retire (s.raise e)) ∨
    (∃ i o, fetch s = .instr i ∧ exec i s = .next (s.withOut o) ∧ t = retire (s.withOut o)) := by
  unfold step at h
  split at h
  · rename_i hf
    refine .inl ⟨?_, (Host.Outcome.next.inj h).symm⟩
    cases hop : s.op <;> simp only [fetch, hop] at hf
    · rfl
    · unfold fetchEnc at hf; split at hf <;> [skip; split at hf] <;> cases hf
    · cases hf
    · unfold fetchDec at hf; split at hf <;> [skip; (split at hf <;> [skip; split at hf])] <;> cases hf
    · unfold fetchStream at hf
      split at hf <;> [skip; (split at hf <;> [skip; split at hf])] <;> cases hf
  · exact .inr (.inl ⟨_, ‹_›, (Host.Outcome.next.inj h).symm⟩)
  · rename_i i hf
    cases he : exec i s with
    | next u =>
      rw [he] at h
      obtain ⟨o, rfl⟩ := exec_next he
      exact .inr (.inr ⟨i, o, hf, he, (Host.Outcome.next.inj h).symm⟩)
    | fault f => cases f
    | refused r => rw [he] at h; cases h

/-- In short: a step that answers changes the outputs, and settles the cursor of the stream reader's own
operation. -/
theorem step_next_out {s t : State} (h : step s = .next t) : ∃ o, t = retire (s.withOut o) := by
  obtain ⟨hop, rfl⟩ | ⟨e, -, rfl⟩ | ⟨i, o, -, -, rfl⟩ := step_next h
  · exact ⟨.noValue, (retire_of_ne (by simp [hop])).symm⟩
  · exact ⟨_, rfl⟩
  · exact ⟨_, rfl⟩

end Sys2Proof.Machine
end

