-- ==== Sys2Proof/Laws/Safety.lean ====
section
/-! SUPPORT. The small lemmas of the terms of Safety.lean. -/

namespace Sys2Proof.Machine

@[simp] theorem stepsTo_nil {s t : State} : stepsTo [] s t ↔ s = t := Iff.rfl

@[simp] theorem stepsTo_cons {o : Output} {os : List Output} {s t : State} :
    stepsTo (o :: os) s t ↔ ∃ u, step s = .next u ∧ u.out = o ∧ stepsTo os u t := Iff.rfl

/-- Walking is composed of walks. -/
theorem stepsTo_append {os os' : List Output} {s t u : State} (h : stepsTo os s t) (h' : stepsTo os' t u) :
    stepsTo (os ++ os') s u := by
  induction os generalizing s with
  | nil => cases h; exact h'
  | cons o os ih => obtain ⟨v, h1, h2, h3⟩ := h; exact ⟨v, h1, h2, ih h3⟩

@[simp] theorem Record.subSecondsFollow_none {r : Record} : r.subSecondsFollow .none ↔
    r.millisecond = none ∧ r.microsecond = none ∧ r.nanosecond = none := Iff.rfl

/-- `DEC` of bytes that are one layout's instruction, whole: the output is that instruction's own. -/
theorem decodesTo_of_decode {bs : List Byte} {o : Output} {i : Instr} {l : Lid} (hn : bs.length = l.len)
    (hd : decode bs = .ok (i, [])) (hl : i.lid = some l) (ho : layoutOutput l i.operands .dec = o) :
    decodesTo bs o := by
  have h10 : bs.length ≤ 10 := by rw [hn]; cases l <;> decide
  intro s hop hlen hbuf
  have hf : fetch s = .instr i := by
    rw [fetch, hop]
    simp only [fetchDec]
    rw [hbuf, hlen, Nat.min_eq_left h10, List.take_of_length_le h10, portBuffer_readBytes, hd]
    simp only [hl, hn, if_true]
  rw [step, hf]
  simp only [exec_layout hl, hop, ho]
  exact congrArg _ (retire_of_ne (by simp [hop]))

end Sys2Proof.Machine
end

