-- ==== Sys2Proof/Tests/Slice0.lean ====
section
/-! SUPPORT. Tests.  Expected results are the worked examples and vectors of spec/95_test_vectors.md (S, V,
F, Z, X, P numbers), the corner cases the rules list, or words written out bit by bit from the formats of
spec/30_encoding.md.  At the end, for every obligation with hypotheses, a witness that meets them. -/

namespace Sys2Proof.Tests

open Sys2Proof.Machine

set_option Elab.async false

/-! ### Small states -/

def encS (vreq : BitVec 4) (slots : Slots) : State :=
  { State.reset with op := .enc, encVreq := vreq, slots := slots }

def decS (bs : List Byte) : State :=
  { State.reset with op := .dec, decLen := bs.length, decBytes := portBuffer (bs.take 10) }

def tagS (b : Byte) : State := { State.reset with op := .taglen, tagByte := b }

def streamS (bs : List Byte) (cursor : Nat) : State :=
  { State.reset with op := .streamDec, stream := Memory.writeBytes [] 0 bs,
                     streamLen := bs.length, cursor := cursor }

def outputOf (s : State) : Option Output :=
  match step s with
  | .next t => some t.out
  | _ => none

def cursorOf (s : State) : Option Nat :=
  match step s with
  | .next t => some t.cursor
  | _ => none

/-- The year to second of the example. -/
def exampleSlots : Slots :=
  { year := some 1983, month := some 1, day := some 15, hour := some 18, minute := some 25, second := some 12 }

/-! ### WellFormed: each check refuses an ill-formed term (R66, R76, R111) -/

theorem test_wf_accepts :
    Instr.wellFormed codecConfig (.dtszNs 4094 11 30 23 59 60 125 999999999) = true ∧
    Instr.wellFormed codecConfig (.dtsMs 4095 15 31 31 63 63 0) = true := by decide

theorem test_wf_month : Instr.wellFormed codecConfig (.d 1983 12 14) = false ∧
    Instr.wellFormed codecConfig (.d 1983 14 14) = false := by decide

theorem test_wf_hour : Instr.wellFormed codecConfig (.t 24 0 0) = false ∧
    Instr.wellFormed codecConfig (.t 30 0 0) = false := by decide

theorem test_wf_minute : Instr.wellFormed codecConfig (.t 0 60 0) = false ∧
    Instr.wellFormed codecConfig (.t 0 62 0) = false := by decide

theorem test_wf_second : Instr.wellFormed codecConfig (.t 0 0 61) = false ∧
    Instr.wellFormed codecConfig (.t 0 0 62) = false := by decide

theorem test_wf_tz : Instr.wellFormed codecConfig (.dtz 0 0 0 0 0 0 126) = false := by decide

theorem test_wf_millisecond : Instr.wellFormed codecConfig (.dtsMs 0 0 0 0 0 0 1000) = false ∧
    Instr.wellFormed codecConfig (.dtsMs 0 0 0 0 0 0 1023) = false := by decide

theorem test_wf_microsecond : Instr.wellFormed codecConfig (.dtszUs 0 0 0 0 0 0 0 1000000) = false := by decide

theorem test_wf_nanosecond : Instr.wellFormed codecConfig (.dtsNs 0 0 0 0 0 0 1000000000) = false := by decide

theorem test_wf_reserved :
    Instr.wellFormed codecConfig (.reserved1010001x 1) = false ∧
    Instr.wellFormed codecConfig (.reserved101001xx 3) = false ∧
    Instr.wellFormed codecConfig (.reserved10101xxx 7) = false ∧
    Instr.wellFormed codecConfig (.reserved1011xxxx 15) = false := by decide

/-! ### Decoding: words written out from the formats R52 to R63, R66 -/

/-- D, its word bit by bit from the format of its rule: tag 100, the fields in wire order. -/
theorem test_word_d : decodeTableWord 24
    0b100_011110111111_0000_01110 =
      some (.d 1983 0 14) := by decide

/-- T, its word bit by bit from the format of its rule: tag 1010000, the fields in wire order. -/
theorem test_word_t : decodeTableWord 24
    0b1010000_10010_011001_001100 =
      some (.t 18 25 12) := by decide

/-- DT, its word bit by bit from the format of its rule: tag 00, the fields in wire order. -/
theorem test_word_dt : decodeTableWord 40
    0b00_011110111111_0000_01110_10010_011001_001100 =
      some (.dt 1983 0 14 18 25 12) := by decide

/-- DTZ, its word bit by bit from the format of its rule: tag 110, the fields in wire order. -/
theorem test_word_dtz : decodeTableWord 48
    0b110_011110111111_0000_01110_10010_011001_001100_1000100 =
      some (.dtz 1983 0 14 18 25 12 68) := by decide

/-- DTS-none, its word bit by bit from the format of its rule: tag 0111, the fields in wire order, zero pad. -/
theorem test_word_dtsNone : decodeTableWord 48
    0b0111_011110111111_0000_01110_10010_011001_001100_000000 =
      some (.dtsNone 1983 0 14 18 25 12) := by decide

/-- DTS-ms, its word bit by bit from the format of its rule: tag 0100, the fields in wire order, zero pad. -/
theorem test_word_dtsMs : decodeTableWord 56
    0b0100_011110111111_0000_01110_10010_011001_001100_0001111011_0000 =
      some (.dtsMs 1983 0 14 18 25 12 123) := by decide

/-- DTS-us, its word bit by bit from the format of its rule: tag 0101, the fields in wire order, zero pad. -/
theorem test_word_dtsUs : decodeTableWord 64
    0b0101_011110111111_0000_01110_10010_011001_001100_00011110001001000000_00 =
      some (.dtsUs 1983 0 14 18 25 12 123456) := by decide

/-- DTS-ns, its word bit by bit from the format of its rule: tag 0110, the fields in wire order. -/
theorem test_word_dtsNs : decodeTableWord 72
    0b0110_011110111111_0000_01110_10010_011001_001100_000111010110111100110100010101 =
      some (.dtsNs 1983 0 14 18 25 12 123456789) := by decide

/-- DTSZ-none, its word bit by bit from the format of its rule: tag 11111, the fields in wire order, zero pad. -/
theorem test_word_dtszNone : decodeTableWord 56
    0b11111_011110111111_0000_01110_10010_011001_001100_1000100_000000 =
      some (.dtszNone 1983 0 14 18 25 12 68) := by decide

/-- DTSZ-ms, its word bit by bit from the format of its rule: tag 11100, the fields in wire order, zero pad. -/
theorem test_word_dtszMs : decodeTableWord 64
    0b11100_011110111111_0000_01110_10010_011001_001100_1000100_0001111011_0000 =
      some (.dtszMs 1983 0 14 18 25 12 68 123) := by decide

/-- DTSZ-us, its word bit by bit from the format of its rule: tag 11101, the fields in wire order, zero pad. -/
theorem test_word_dtszUs : decodeTableWord 72
    0b11101_011110111111_0000_01110_10010_011001_001100_1000100_00011110001001000000_00 =
      some (.dtszUs 1983 0 14 18 25 12 68 123456) := by decide

/-- DTSZ-ns, its word bit by bit from the format of its rule: tag 11110, the fields in wire order. -/
theorem test_word_dtszNs : decodeTableWord 80
    0b11110_011110111111_0000_01110_10010_011001_001100_1000100_000111010110111100110100010101 =
      some (.dtszNs 1983 0 14 18 25 12 68 123456789) := by decide

/-- Reserved rows, their byte bit by bit from the patterns of R66. -/
theorem test_word_reserved :
    decodeTableWord 8 0b1010001_1 = some (.reserved1010001x 1) ∧
    decodeTableWord 8 0b101001_10 = some (.reserved101001xx 2) ∧
    decodeTableWord 8 0b10101_100 = some (.reserved10101xxx 4) ∧
    decodeTableWord 8 0b1011_0111 = some (.reserved1011xxxx 7) := by decide

/-- Pad bits are not looked at (X9, X10). -/
theorem test_word_pad :
    decodeTableWord 48 0x77bf0749933f = decodeTableWord 48 0x77bf07499300 ∧
    decodeTableWord 56 0x47bf07499307bf = decodeTableWord 56 0x47bf07499307b0 := by decide

/-- A byte string that is empty, or shorter than its tag implies, holds no value (R181); bytes after a value
are left. -/
theorem test_decode_ends :
    decode [] = .error .empty ∧ decode [0x8f#8, 0x7e#8] = .error (.short .d) ∧
    decode [0xb0#8, 1#8] = .ok (.reserved1011xxxx 0, [1#8]) := by decide

/-! ### The layouts, one step each -/

/-- `ENC` of D: the example, max, min and absent of spec/95_test_vectors.md 2.4. -/
theorem test_enc_d :
    outputOf (encS 1
      { year := some 1983, month := some 1, day := some 15 }) =
      some (.encoded .d (portBuffer [0x8f, 0x7e, 0x0e])) ∧
    outputOf (encS 1
      { year := some 4094, month := some 12, day := some 31 }) =
      some (.encoded .d (portBuffer [0x9f, 0xfd, 0x7e])) ∧
    outputOf (encS 1
      { year := some 0, month := some 1, day := some 1 }) =
      some (.encoded .d (portBuffer [0x80, 0x00, 0x00])) ∧
    outputOf (encS 1 {}) =
      some (.encoded .d (portBuffer [0x9f, 0xff, 0xff])) := by decide +kernel

/-- `DEC` of D: the example and max of 2.4 read back. -/
theorem test_dec_d :
    outputOf (decS [0x8f, 0x7e, 0x0e]) = some (.decoded .d
      { year := some 1983, month := some 1, day := some 15 }) ∧
    outputOf (decS [0x9f, 0xfd, 0x7e]) = some (.decoded .d
      { year := some 4094, month := some 12, day := some 31 }) := by decide +kernel

/-- `ENC` of T: the example, max, min and absent of spec/95_test_vectors.md 2.4. -/
theorem test_enc_t :
    outputOf (encS 2
      { hour := some 18, minute := some 25, second := some 12 }) =
      some (.encoded .t (portBuffer [0xa1, 0x26, 0x4c])) ∧
    outputOf (encS 2
      { hour := some 23, minute := some 59, second := some 60 }) =
      some (.encoded .t (portBuffer [0xa1, 0x7e, 0xfc])) ∧
    outputOf (encS 2
      { hour := some 0, minute := some 0, second := some 0 }) =
      some (.encoded .t (portBuffer [0xa0, 0x00, 0x00])) ∧
    outputOf (encS 2 {}) =
      some (.encoded .t (portBuffer [0xa1, 0xff, 0xff])) := by decide +kernel

/-- `DEC` of T: the example and max of 2.4 read back. -/
theorem test_dec_t :
    outputOf (decS [0xa1, 0x26, 0x4c]) = some (.decoded .t
      { hour := some 18, minute := some 25, second := some 12 }) ∧
    outputOf (decS [0xa1, 0x7e, 0xfc]) = some (.decoded .t
      { hour := some 23, minute := some 59, second := some 60 }) := by decide +kernel

/-- `ENC` of DT: the example, max, min and absent of spec/95_test_vectors.md 2.4. -/
theorem test_enc_dt :
    outputOf (encS 3
      { year := some 1983, month := some 1, day := some 15, hour := some 18, minute := some 25,
        second := some 12 }) =
      some (.encoded .dt (portBuffer [0x1e, 0xfc, 0x1d, 0x26, 0x4c])) ∧
    outputOf (encS 3
      { year := some 4094, month := some 12, day := some 31, hour := some 23, minute := some 59,
        second := some 60 }) =
      some (.encoded .dt (portBuffer [0x3f, 0xfa, 0xfd, 0x7e, 0xfc])) ∧
    outputOf (encS 3
      { year := some 0, month := some 1, day := some 1, hour := some 0, minute := some 0,
        second := some 0 }) =
      some (.encoded .dt (portBuffer [0x00, 0x00, 0x00, 0x00, 0x00])) ∧
    outputOf (encS 3 {}) =
      some (.encoded .dt (portBuffer [0x3f, 0xff, 0xff, 0xff, 0xff])) := by decide +kernel

/-- `DEC` of DT: the example and max of 2.4 read back. -/
theorem test_dec_dt :
    outputOf (decS [0x1e, 0xfc, 0x1d, 0x26, 0x4c]) = some (.decoded .dt
      { year := some 1983, month := some 1, day := some 15, hour := some 18, minute := some 25,
        second := some 12 }) ∧
    outputOf (decS [0x3f, 0xfa, 0xfd, 0x7e, 0xfc]) = some (.decoded .dt
      { year := some 4094, month := some 12, day := some 31, hour := some 23, minute := some 59,
        second := some 60 }) := by decide +kernel

/-- `ENC` of DTZ: the example, max, min and absent of spec/95_test_vectors.md 2.4. -/
theorem test_enc_dtz :
    outputOf (encS 4
      { year := some 1983, month := some 1, day := some 15, hour := some 18, minute := some 25,
        second := some 12, tzOffset := some 60 }) =
      some (.encoded .dtz (portBuffer [0xcf, 0x7e, 0x0e, 0x93, 0x26, 0x44])) ∧
    outputOf (encS 4
      { year := some 4094, month := some 12, day := some 31, hour := some 23, minute := some 59,
        second := some 60, tzOffset := some 915 }) =
      some (.encoded .dtz (portBuffer [0xdf, 0xfd, 0x7e, 0xbf, 0x7e, 0x7d])) ∧
    outputOf (encS 4
      { year := some 0, month := some 1, day := some 1, hour := some 0, minute := some 0,
        second := some 0, tzOffset := some (-960) }) =
      some (.encoded .dtz (portBuffer [0xc0, 0x00, 0x00, 0x00, 0x00, 0x00])) ∧
    outputOf (encS 4 {}) =
      some (.encoded .dtz (portBuffer [0xdf, 0xff, 0xff, 0xff, 0xff, 0xff])) := by decide +kernel

/-- `DEC` of DTZ: the example and max of 2.4 read back. -/
theorem test_dec_dtz :
    outputOf (decS [0xcf, 0x7e, 0x0e, 0x93, 0x26, 0x44]) = some (.decoded .dtz
      { year := some 1983, month := some 1, day := some 15, hour := some 18, minute := some 25,
        second := some 12, tzOffset := some 60, tzHour := some 1, tzMinute := some 0 }) ∧
    outputOf (decS [0xdf, 0xfd, 0x7e, 0xbf, 0x7e, 0x7d]) = some (.decoded .dtz
      { year := some 4094, month := some 12, day := some 31, hour := some 23, minute := some 59,
        second := some 60, tzOffset := some 915, tzHour := some 15, tzMinute := some 15 }) := by decide +kernel

/-- `ENC` of DTS-none: the example, max, min and absent of spec/95_test_vectors.md 2.4. -/
theorem test_enc_dtsNone :
    outputOf (encS 5
      { year := some 1983, month := some 1, day := some 15, hour := some 18, minute := some 25,
        second := some 12 }) =
      some (.encoded .dtsNone (portBuffer [0x77, 0xbf, 0x07, 0x49, 0x93, 0x00])) ∧
    outputOf (encS 5
      { year := some 4094, month := some 12, day := some 31, hour := some 23, minute := some 59,
        second := some 60 }) =
      some (.encoded .dtsNone (portBuffer [0x7f, 0xfe, 0xbf, 0x5f, 0xbf, 0x00])) ∧
    outputOf (encS 5
      { year := some 0, month := some 1, day := some 1, hour := some 0, minute := some 0,
        second := some 0 }) =
      some (.encoded .dtsNone (portBuffer [0x70, 0x00, 0x00, 0x00, 0x00, 0x00])) ∧
    outputOf (encS 5 {}) =
      some (.encoded .dtsNone (portBuffer [0x7f, 0xff, 0xff, 0xff, 0xff, 0xc0])) := by decide +kernel

/-- `DEC` of DTS-none: the example and max of 2.4 read back. -/
theorem test_dec_dtsNone :
    outputOf (decS [0x77, 0xbf, 0x07, 0x49, 0x93, 0x00]) = some (.decoded .dtsNone
      { year := some 1983, month := some 1, day := some 15, hour := some 18, minute := some 25,
        second := some 12 }) ∧
    outputOf (decS [0x7f, 0xfe, 0xbf, 0x5f, 0xbf, 0x00]) = some (.decoded .dtsNone
      { year := some 4094, month := some 12, day := some 31, hour := some 23, minute := some 59,
        second := some 60 }) := by decide +kernel

/-- `ENC` of DTS-ms: the example, max, min and absent of spec/95_test_vectors.md 2.4. -/
theorem test_enc_dtsMs :
    outputOf (encS 5
      { year := some 1983, month := some 1, day := some 15, hour := some 18, minute := some 25,
        second := some 12, millisecond := some 123 }) =
      some (.encoded .dtsMs (portBuffer [0x47, 0xbf, 0x07, 0x49, 0x93, 0x07, 0xb0])) ∧
    outputOf (encS 5
      { year := some 4094, month := some 12, day := some 31, hour := some 23, minute := some 59,
        second := some 60, millisecond := some 999 }) =
      some (.encoded .dtsMs (portBuffer [0x4f, 0xfe, 0xbf, 0x5f, 0xbf, 0x3e, 0x70])) ∧
    outputOf (encS 5
      { year := some 0, month := some 1, day := some 1, hour := some 0, minute := some 0,
        second := some 0, millisecond := some 0 }) =
      some (.encoded .dtsMs (portBuffer [0x40, 0x00, 0x00, 0x00, 0x00, 0x00, 0x00])) ∧
    outputOf (encS 5 { millisecond := some 0 }) =
      some (.encoded .dtsMs (portBuffer [0x4f, 0xff, 0xff, 0xff, 0xff, 0xc0, 0x00])) := by decide +kernel

/-- `DEC` of DTS-ms: the example and max of 2.4 read back. -/
theorem test_dec_dtsMs :
    outputOf (decS [0x47, 0xbf, 0x07, 0x49, 0x93, 0x07, 0xb0]) = some (.decoded .dtsMs
      { year := some 1983, month := some 1, day := some 15, hour := some 18, minute := some 25,
        second := some 12, millisecond := some 123, microsecond := some 123000,
        nanosecond := some 123000000 }) ∧
    outputOf (decS [0x4f, 0xfe, 0xbf, 0x5f, 0xbf, 0x3e, 0x70]) = some (.decoded .dtsMs
      { year := some 4094, month := some 12, day := some 31, hour := some 23, minute := some 59,
        second := some 60, millisecond := some 999, microsecond := some 999000,
        nanosecond := some 999000000 }) := by decide +kernel

/-- `ENC` of DTS-us: the example, max, min and absent of spec/95_test_vectors.md 2.4. -/
theorem test_enc_dtsUs :
    outputOf (encS 5
      { year := some 1983, month := some 1, day := some 15, hour := some 18, minute := some 25,
        second := some 12, microsecond := some 123456 }) =
      some (.encoded .dtsUs (portBuffer [0x57, 0xbf, 0x07, 0x49, 0x93, 0x07, 0x89, 0x00])) ∧
    outputOf (encS 5
      { year := some 4094, month := some 12, day := some 31, hour := some 23, minute := some 59,
        second := some 60, microsecond := some 999999 }) =
      some (.encoded .dtsUs (portBuffer [0x5f, 0xfe, 0xbf, 0x5f, 0xbf, 0x3d, 0x08, 0xfc])) ∧
    outputOf (encS 5
      { year := some 0, month := some 1, day := some 1, hour := some 0, minute := some 0,
        second := some 0, microsecond := some 0 }) =
      some (.encoded .dtsUs (portBuffer [0x50, 0x00, 0x00, 0x00, 0x00, 0x00, 0x00, 0x00])) ∧
    outputOf (encS 5 { microsecond := some 0 }) =
      some (.encoded .dtsUs (portBuffer [0x5f, 0xff, 0xff, 0xff, 0xff, 0xc0, 0x00, 0x00])) := by decide +kernel

/-- `DEC` of DTS-us: the example and max of 2.4 read back. -/
theorem test_dec_dtsUs :
    outputOf (decS [0x57, 0xbf, 0x07, 0x49, 0x93, 0x07, 0x89, 0x00]) = some (.decoded .dtsUs
      { year := some 1983, month := some 1, day := some 15, hour := some 18, minute := some 25,
        second := some 12, millisecond := some 123, microsecond := some 123456,
        nanosecond := some 123456000 }) ∧
    outputOf (decS [0x5f, 0xfe, 0xbf, 0x5f, 0xbf, 0x3d, 0x08, 0xfc]) = some (.decoded .dtsUs
      { year := some 4094, month := some 12, day := some 31, hour := some 23, minute := some 59,
        second := some 60, millisecond := some 999, microsecond := some 999999,
        nanosecond := some 999999000 }) := by decide +kernel

/-- `ENC` of DTS-ns: the example, max, min and absent of spec/95_test_vectors.md 2.4. -/
theorem test_enc_dtsNs :
    outputOf (encS 5
      { year := some 1983, month := some 1, day := some 15, hour := some 18, minute := some 25,
        second := some 12, nanosecond := some 123456789 }) =
      some (.encoded .dtsNs (portBuffer [0x67, 0xbf, 0x07, 0x49, 0x93, 0x07, 0x5b, 0xcd, 0x15])) ∧
    outputOf (encS 5
      { year := some 4094, month := some 12, day := some 31, hour := some 23, minute := some 59,
        second := some 60, nanosecond := some 999999999 }) =
      some (.encoded .dtsNs (portBuffer [0x6f, 0xfe, 0xbf, 0x5f, 0xbf, 0x3b, 0x9a, 0xc9, 0xff])) ∧
    outputOf (encS 5
      { year := some 0, month := some 1, day := some 1, hour := some 0, minute := some 0,
        second := some 0, nanosecond := some 0 }) =
      some (.encoded .dtsNs (portBuffer [0x60, 0x00, 0x00, 0x00, 0x00, 0x00, 0x00, 0x00, 0x00])) ∧
    outputOf (encS 5 { nanosecond := some 0 }) =
      some (.encoded .dtsNs (portBuffer [0x6f, 0xff, 0xff, 0xff, 0xff, 0xc0, 0x00, 0x00, 0x00])) := by decide +kernel

/-- `DEC` of DTS-ns: the example and max of 2.4 read back. -/
theorem test_dec_dtsNs :
    outputOf (decS [0x67, 0xbf, 0x07, 0x49, 0x93, 0x07, 0x5b, 0xcd, 0x15]) = some (.decoded .dtsNs
      { year := some 1983, month := some 1, day := some 15, hour := some 18, minute := some 25,
        second := some 12, millisecond := some 123, microsecond := some 123456,
        nanosecond := some 123456789 }) ∧
    outputOf (decS [0x6f, 0xfe, 0xbf, 0x5f, 0xbf, 0x3b, 0x9a, 0xc9, 0xff]) = some (.decoded .dtsNs
      { year := some 4094, month := some 12, day := some 31, hour := some 23, minute := some 59,
        second := some 60, millisecond := some 999, microsecond := some 999999,
        nanosecond := some 999999999 }) := by decide +kernel

/-- `ENC` of DTSZ-none: the example, max, min and absent of spec/95_test_vectors.md 2.4. -/
theorem test_enc_dtszNone :
    outputOf (encS 6
      { year := some 1983, month := some 1, day := some 15, hour := some 18, minute := some 25,
        second := some 12, tzOffset := some 60 }) =
      some (.encoded .dtszNone (portBuffer [0xfb, 0xdf, 0x83, 0xa4, 0xc9, 0x91, 0x00])) ∧
    outputOf (encS 6
      { year := some 4094, month := some 12, day := some 31, hour := some 23, minute := some 59,
        second := some 60, tzOffset := some 915 }) =
      some (.encoded .dtszNone (portBuffer [0xff, 0xff, 0x5f, 0xaf, 0xdf, 0x9f, 0x40])) ∧
    outputOf (encS 6
      { year := some 0, month := some 1, day := some 1, hour := some 0, minute := some 0,
        second := some 0, tzOffset := some (-960) }) =
      some (.encoded .dtszNone (portBuffer [0xf8, 0x00, 0x00, 0x00, 0x00, 0x00, 0x00])) ∧
    outputOf (encS 6 {}) =
      some (.encoded .dtszNone (portBuffer [0xff, 0xff, 0xff, 0xff, 0xff, 0xff, 0xc0])) := by decide +kernel

/-- `DEC` of DTSZ-none: the example and max of 2.4 read back. -/
theorem test_dec_dtszNone :
    outputOf (decS [0xfb, 0xdf, 0x83, 0xa4, 0xc9, 0x91, 0x00]) = some (.decoded .dtszNone
      { year := some 1983, month := some 1, day := some 15, hour := some 18, minute := some 25,
        second := some 12, tzOffset := some 60, tzHour := some 1, tzMinute := some 0 }) ∧
    outputOf (decS [0xff, 0xff, 0x5f, 0xaf, 0xdf, 0x9f, 0x40]) = some (.decoded .dtszNone
      { year := some 4094, month := some 12, day := some 31, hour := some 23, minute := some 59,
        second := some 60, tzOffset := some 915, tzHour := some 15, tzMinute := some 15 }) := by decide +kernel

/-- `ENC` of DTSZ-ms: the example, max, min and absent of spec/95_test_vectors.md 2.4. -/
theorem test_enc_dtszMs :
    outputOf (encS 6
      { year := some 1983, month := some 1, day := some 15, hour := some 18, minute := some 25,
        second := some 12, tzOffset := some 60, millisecond := some 123 }) =
      some (.encoded .dtszMs (portBuffer [0xe3, 0xdf, 0x83, 0xa4, 0xc9, 0x91, 0x07, 0xb0])) ∧
    outputOf (encS 6
      { year := some 4094, month := some 12, day := some 31, hour := some 23, minute := some 59,
        second := some 60, tzOffset := some 915, millisecond := some 999 }) =
      some (.encoded .dtszMs (portBuffer [0xe7, 0xff, 0x5f, 0xaf, 0xdf, 0x9f, 0x7e, 0x70])) ∧
    outputOf (encS 6
      { year := some 0, month := some 1, day := some 1, hour := some 0, minute := some 0,
        second := some 0, tzOffset := some (-960), millisecond := some 0 }) =
      some (.encoded .dtszMs (portBuffer [0xe0, 0x00, 0x00, 0x00, 0x00, 0x00, 0x00, 0x00])) ∧
    outputOf (encS 6 { millisecond := some 0 }) =
      some (.encoded .dtszMs (portBuffer [0xe7, 0xff, 0xff, 0xff, 0xff, 0xff, 0xc0, 0x00])) := by decide +kernel

/-- `DEC` of DTSZ-ms: the example and max of 2.4 read back. -/
theorem test_dec_dtszMs :
    outputOf (decS [0xe3, 0xdf, 0x83, 0xa4, 0xc9, 0x91, 0x07, 0xb0]) = some (.decoded .dtszMs
      { year := some 1983, month := some 1, day := some 15, hour := some 18, minute := some 25,
        second := some 12, tzOffset := some 60, tzHour := some 1, tzMinute := some 0,
        millisecond := some 123, microsecond := some 123000, nanosecond := some 123000000 }) ∧
    outputOf (decS [0xe7, 0xff, 0x5f, 0xaf, 0xdf, 0x9f, 0x7e, 0x70]) = some (.decoded .dtszMs
      { year := some 4094, month := some 12, day := some 31, hour := some 23, minute := some 59,
        second := some 60, tzOffset := some 915, tzHour := some 15, tzMinute := some 15,
        millisecond := some 999, microsecond := some 999000, nanosecond := some 999000000 }) := by decide +kernel

/-- `ENC` of DTSZ-us: the example, max, min and absent of spec/95_test_vectors.md 2.4. -/
theorem test_enc_dtszUs :
    outputOf (encS 6
      { year := some 1983, month := some 1, day := some 15, hour := some 18, minute := some 25,
        second := some 12, tzOffset := some 60, microsecond := some 123456 }) =
      some (.encoded .dtszUs (portBuffer [0xeb, 0xdf, 0x83, 0xa4, 0xc9, 0x91, 0x07, 0x89, 0x00])) ∧
    outputOf (encS 6
      { year := some 4094, month := some 12, day := some 31, hour := some 23, minute := some 59,
        second := some 60, tzOffset := some 915, microsecond := some 999999 }) =
      some (.encoded .dtszUs (portBuffer [0xef, 0xff, 0x5f, 0xaf, 0xdf, 0x9f, 0x7d, 0x08, 0xfc])) ∧
    outputOf (encS 6
      { year := some 0, month := some 1, day := some 1, hour := some 0, minute := some 0,
        second := some 0, tzOffset := some (-960), microsecond := some 0 }) =
      some (.encoded .dtszUs (portBuffer [0xe8, 0x00, 0x00, 0x00, 0x00, 0x00, 0x00, 0x00, 0x00])) ∧
    outputOf (encS 6 { microsecond := some 0 }) =
      some (.encoded .dtszUs (portBuffer [0xef, 0xff, 0xff, 0xff, 0xff, 0xff, 0xc0, 0x00, 0x00])) := by decide +kernel

/-- `DEC` of DTSZ-us: the example and max of 2.4 read back. -/
theorem test_dec_dtszUs :
    outputOf (decS [0xeb, 0xdf, 0x83, 0xa4, 0xc9, 0x91, 0x07, 0x89, 0x00]) = some (.decoded .dtszUs
      { year := some 1983, month := some 1, day := some 15, hour := some 18, minute := some 25,
        second := some 12, tzOffset := some 60, tzHour := some 1, tzMinute := some 0,
        millisecond := some 123, microsecond := some 123456, nanosecond := some 123456000 }) ∧
    outputOf (decS [0xef, 0xff, 0x5f, 0xaf, 0xdf, 0x9f, 0x7d, 0x08, 0xfc]) = some (.decoded .dtszUs
      { year := some 4094, month := some 12, day := some 31, hour := some 23, minute := some 59,
        second := some 60, tzOffset := some 915, tzHour := some 15, tzMinute := some 15,
        millisecond := some 999, microsecond := some 999999, nanosecond := some 999999000 }) := by decide +kernel

/-- `ENC` of DTSZ-ns: the example, max, min and absent of spec/95_test_vectors.md 2.4. -/
theorem test_enc_dtszNs :
    outputOf (encS 6
      { year := some 1983, month := some 1, day := some 15, hour := some 18, minute := some 25,
        second := some 12, tzOffset := some 60, nanosecond := some 123456789 }) =
      some (.encoded .dtszNs (portBuffer [0xf3, 0xdf, 0x83, 0xa4, 0xc9, 0x91, 0x07, 0x5b, 0xcd, 0x15])) ∧
    outputOf (encS 6
      { year := some 4094, month := some 12, day := some 31, hour := some 23, minute := some 59,
        second := some 60, tzOffset := some 915, nanosecond := some 999999999 }) =
      some (.encoded .dtszNs (portBuffer [0xf7, 0xff, 0x5f, 0xaf, 0xdf, 0x9f, 0x7b, 0x9a, 0xc9, 0xff])) ∧
    outputOf (encS 6
      { year := some 0, month := some 1, day := some 1, hour := some 0, minute := some 0,
        second := some 0, tzOffset := some (-960), nanosecond := some 0 }) =
      some (.encoded .dtszNs (portBuffer [0xf0, 0x00, 0x00, 0x00, 0x00, 0x00, 0x00, 0x00, 0x00, 0x00])) ∧
    outputOf (encS 6 { nanosecond := some 0 }) =
      some (.encoded .dtszNs (portBuffer [0xf7, 0xff, 0xff, 0xff, 0xff, 0xff, 0xc0, 0x00, 0x00, 0x00])) := by decide +kernel

/-- `DEC` of DTSZ-ns: the example and max of 2.4 read back. -/
theorem test_dec_dtszNs :
    outputOf (decS [0xf3, 0xdf, 0x83, 0xa4, 0xc9, 0x91, 0x07, 0x5b, 0xcd, 0x15]) = some (.decoded .dtszNs
      { year := some 1983, month := some 1, day := some 15, hour := some 18, minute := some 25,
        second := some 12, tzOffset := some 60, tzHour := some 1, tzMinute := some 0,
        millisecond := some 123, microsecond := some 123456, nanosecond := some 123456789 }) ∧
    outputOf (decS [0xf7, 0xff, 0x5f, 0xaf, 0xdf, 0x9f, 0x7b, 0x9a, 0xc9, 0xff]) = some (.decoded .dtszNs
      { year := some 4094, month := some 12, day := some 31, hour := some 23, minute := some 59,
        second := some 60, tzOffset := some 915, tzHour := some 15, tzMinute := some 15,
        millisecond := some 999, microsecond := some 999999, nanosecond := some 999999999 }) := by decide +kernel

/-- Reserved rows under `DEC` (X34 to X36): the tag comes before the length. -/
theorem test_dec_reserved :
    outputOf (decS [0xb0, 0, 0]) = some (.failed .invalidTag) ∧
    outputOf (decS [0xa2, 0, 0]) = some (.failed .invalidTag) ∧
    outputOf (decS [0xa5]) = some (.failed .invalidTag) ∧
    outputOf (decS [0xa8]) = some (.failed .invalidTag) ∧
    outputOf (decS [0xbf]) = some (.failed .invalidTag) := by decide +kernel

/-- `TAGLEN` at the edges of every range (2.5). -/
theorem test_taglen :
    ([0x00, 0x3f, 0x40, 0x4f, 0x50, 0x5f, 0x60, 0x6f, 0x70, 0x7f, 0x80, 0x9f, 0xa0, 0xa1, 0xa2, 0xbf, 0xc0,
      0xdf, 0xe0, 0xe7, 0xe8, 0xef, 0xf0, 0xf7, 0xf8, 0xff] : List Byte).map (fun b => outputOf (tagS b)) =
    ([.tagged .dt, .tagged .dt, .tagged .dtsMs, .tagged .dtsMs, .tagged .dtsUs, .tagged .dtsUs,
      .tagged .dtsNs, .tagged .dtsNs, .tagged .dtsNone, .tagged .dtsNone, .tagged .d, .tagged .d,
      .tagged .t, .tagged .t, .failed .invalidTag, .failed .invalidTag, .tagged .dtz, .tagged .dtz,
      .tagged .dtszMs, .tagged .dtszMs, .tagged .dtszUs, .tagged .dtszUs, .tagged .dtszNs, .tagged .dtszNs,
      .tagged .dtszNone, .tagged .dtszNone] : List Output).map some := by decide +kernel

/-- Ports of a success and of an error (R16, R235): `lid`, `len`, `err`. -/
theorem test_ports :
    (outputOf (tagS 0xeb)).bind Output.lidPort = some 10 ∧ (outputOf (tagS 0xeb)).bind Output.lenPort = some 9 ∧
    (outputOf (tagS 0xeb)).bind Output.err = some 0 ∧ (outputOf (tagS 0xa2)).bind Output.err = some 4 ∧
    (outputOf (tagS 0xa2)).bind Output.lidPort = none := by decide +kernel

/-! ### Selection and field codec (2.1 to 2.3) -/

/-- Inference (V1, V4, V7, V9, V10). -/
theorem test_enc_inferred :
    outputOf (encS 0 {}) = some (.encoded .d (portBuffer [0x9f, 0xff, 0xff])) ∧
    outputOf (encS 0 { day := some 3, minute := some 4 }) =
      some (.encoded .dt (portBuffer [0x3f, 0xff, 0xc5, 0xf1, 0x3f])) ∧
    outputOf (encS 0 { hour := some 7, tzOffset := some 120 }) =
      some (.encoded .dtz (portBuffer [0xdf, 0xff, 0xff, 0x3f, 0xff, 0xc8])) ∧
    outputOf (encS 0 { millisecond := some 1, nanosecond := some 2 }) =
      some (.encoded .dtsNs (portBuffer [0x6f, 0xff, 0xff, 0xff, 0xff, 0xc0, 0, 0, 2])) ∧
    outputOf (encS 0 { microsecond := some 5, tzOffset := some (-60) }) =
      some (.encoded .dtszUs (portBuffer [0xef, 0xff, 0xff, 0xff, 0xff, 0xef, 0, 0, 0x14])) := by decide +kernel

/-- An explicit family is used as asked: slots it does not carry are checked, then dropped (V14, F38, F39); an
unknown name is found first (V20). -/
theorem test_enc_explicit :
    outputOf (encS 5 { nanosecond := some 1, tzOffset := some 60 }) =
      some (.encoded .dtsNs (portBuffer [0x6f, 0xff, 0xff, 0xff, 0xff, 0xc0, 0, 0, 1])) ∧
    outputOf (encS 1 { year := some 2000, hour := some 5 }) =
      some (.encoded .d (portBuffer [0x8f, 0xa1, 0xff])) ∧
    outputOf (encS 1 { year := some 2000, hour := some 99 }) = some (.failed (.outOfRange .hour 99 0 23)) ∧
    outputOf (encS 7 { year := some 5000 }) = some (.failed .unsupportedType) ∧
    outputOf (encS 15 { year := some 5000 }) = some (.failed .unsupportedType) := by decide +kernel

/-- One past each end of a range, with the payload (F3, F4, F7, F8, F12, F20, F23, F25, F30, F31, F33, F35). -/
theorem test_enc_outOfRange :
    outputOf (encS 1 { year := some 4095 }) = some (.failed (.outOfRange .year 4095 0 4094)) ∧
    outputOf (encS 1 { year := some (-1) }) = some (.failed (.outOfRange .year (-1) 0 4094)) ∧
    outputOf (encS 1 { month := some 0 }) = some (.failed (.outOfRange .month (-1) 0 11)) ∧
    outputOf (encS 1 { month := some 13 }) = some (.failed (.outOfRange .month 12 0 11)) ∧
    outputOf (encS 1 { day := some 32 }) = some (.failed (.outOfRange .day 31 0 30)) ∧
    outputOf (encS 2 { hour := some 24 }) = some (.failed (.outOfRange .hour 24 0 23)) ∧
    outputOf (encS 2 { minute := some 60 }) = some (.failed (.outOfRange .minute 60 0 59)) ∧
    outputOf (encS 2 { second := some 61 }) = some (.failed (.outOfRange .second 61 0 60)) ∧
    outputOf (encS 5 { millisecond := some 1000 }) = some (.failed (.outOfRange .millisecond 1000 0 999)) ∧
    outputOf (encS 5 { millisecond := some (-1) }) = some (.failed (.outOfRange .millisecond (-1) 0 999)) ∧
    outputOf (encS 5 { microsecond := some 1000000 }) =
      some (.failed (.outOfRange .microsecond 1000000 0 999999)) ∧
    outputOf (encS 5 { nanosecond := some 1000000000 }) =
      some (.failed (.outOfRange .nanosecond 1000000000 0 999999999)) := by decide +kernel

/-- The first offending slot in canonical order (F37, F40, F41). -/
theorem test_enc_first_error :
    outputOf (encS 5 { millisecond := some 1000, nanosecond := some 7 }) =
      some (.failed (.outOfRange .millisecond 1000 0 999)) ∧
    outputOf (encS 0 { year := some 5000, month := some 13, tzOffset := some 7 }) =
      some (.failed (.outOfRange .year 5000 0 4094)) := by decide +kernel

/-- Timezones (Z1, Z6, Z16 to Z19). -/
theorem test_enc_tz :
    outputOf (encS 4 { tzOffset := some (-960) }) =
      some (.encoded .dtz (portBuffer [0xdf, 0xff, 0xff, 0xff, 0xff, 0x80])) ∧
    outputOf (encS 4 { tzOffset := some (-45) }) =
      some (.encoded .dtz (portBuffer [0xdf, 0xff, 0xff, 0xff, 0xff, 0xbd])) ∧
    outputOf (encS 4 { tzOffset := some 915 }) =
      some (.encoded .dtz (portBuffer [0xdf, 0xff, 0xff, 0xff, 0xff, 0xfd])) ∧
    outputOf (encS 4 { tzOffset := some 930 }) = some (.failed (.outOfRange .tz 930 (-960) 915)) ∧
    outputOf (encS 4 { tzOffset := some (-975) }) = some (.failed (.outOfRange .tz (-975) (-960) 915)) ∧
    outputOf (encS 4 { tzOffset := some 20 }) = some (.failed (.outOfRange .tz 20 (-960) 915)) := by
  decide +kernel

/-- Negative offsets read back: the magnitude in tz_hour and tz_minute (Z1, Z6). -/
theorem test_dec_tz :
    outputOf (decS [0xdf, 0xff, 0xff, 0xff, 0xff, 0x80]) =
      some (.decoded .dtz { tzOffset := some (-960), tzHour := some 16, tzMinute := some 0 }) ∧
    outputOf (decS [0xdf, 0xff, 0xff, 0xff, 0xff, 0xbd]) =
      some (.decoded .dtz { tzOffset := some (-45), tzHour := some 0, tzMinute := some 45 }) := by decide +kernel

/-- Truncation of the derived sub-second slots (X20, X21, X22). -/
theorem test_dec_truncates :
    outputOf (decS [0x5f, 0xff, 0xff, 0xff, 0xff, 0xc0, 0x0f, 0x9c]) = some (.decoded .dtsUs
      { millisecond := some 0, microsecond := some 999, nanosecond := some 999000 }) ∧
    outputOf (decS [0x6f, 0xff, 0xff, 0xff, 0xff, 0xc0, 0, 0x03, 0xe7]) = some (.decoded .dtsNs
      { millisecond := some 0, microsecond := some 0, nanosecond := some 999 }) ∧
    outputOf (decS [0x6f, 0xff, 0xff, 0xff, 0xff, 0xc0, 0, 0x03, 0xe8]) = some (.decoded .dtsNs
      { millisecond := some 0, microsecond := some 1, nanosecond := some 1000 }) := by decide +kernel

/-! ### The stream reader (program P2) and reset -/

def p2 : List Byte := [0x8f, 0x7e, 0x0e, 0x9f, 0xff, 0xff, 0x2a]

theorem test_stream_first : outputOf (streamS p2 0) =
      some (.decoded .d { year := some 1983, month := some 1, day := some 15 }) ∧
    cursorOf (streamS p2 0) = some 3 := by decide +kernel

theorem test_stream_second : outputOf (streamS p2 3) = some (.decoded .d {}) ∧
    cursorOf (streamS p2 3) = some 6 := by decide +kernel

/-- The trailing byte alone, and the end of the stream. -/
theorem test_stream_short : outputOf (streamS p2 6) = some (.failed .shortRead) ∧
    outputOf (streamS p2 7) = some (.failed .shortRead) ∧
    outputOf (streamS [0xa2] 0) = some (.failed .invalidTag) := by decide +kernel

theorem test_reset_first_word :
    outputOf (State.reset.withFetchWord 24 0x8f7e0e) =
      some (.decoded .d { year := some 1983, month := some 1, day := some 15 }) := by decide +kernel

/-! ### Witnesses: for every obligation with hypotheses, inputs that meet them all -/

theorem witness_EncodeDecodeCanonical :
    decode [0x47#8, 0xbf#8, 0x07#8, 0x49#8, 0x93#8, 0x07#8, 0xb0#8, 9#8] =
      .ok (.dtsMs 1983 0 14 18 25 12 123, [9#8]) ∧
    (∀ l, Instr.lid (.dtsMs 1983 0 14 18 25 12 123) = some l →
      deserialize ([0x47#8, 0xbf#8, 0x07#8, 0x49#8, 0x93#8, 0x07#8, 0xb0#8, 9#8].take l.len) %
        2 ^ l.row.padBits = 0) := by
  refine ⟨by decide, fun l h => ?_⟩
  cases h; decide

theorem witness_TagsArePrefixFree :
    Lid.dt ≠ Lid.t ∧ Lid.dt.row.tagBits ≤ Lid.t.row.tagBits ∧
    Lid.d ≠ Lid.dtz ∧ Lid.d.row.tagBits ≤ Lid.dtz.row.tagBits := by decide

theorem witness_LayoutTableBitBudget : (12 : Nat) ≤ 12 ∧ (12 : Nat) ≤ 15 := by decide

theorem witness_WireWordIsBigEndian :
    (0 < 3 ∧ 2 < 3) ∧ (0xffffff < 2 ^ (8 * 3) ∧ 0 < 2 ^ (8 * 0)) ∧ Instr.lid (.t 31 63 63) = some .t := by decide

theorem witness_PadBitsWrittenZeroReadIgnored :
    Instr.lid (.dtsNone 1983 0 14 18 25 12) = some .dtsNone ∧
    0x77bf0749933f < 2 ^ (8 * Lid.dtsNone.len) ∧ 0x77bf07499300 < 2 ^ (8 * Lid.dtsNone.len) ∧
    0x77bf0749933f >>> (8 * Lid.dtsNone.len - Lid.dtsNone.row.tagBits) = Lid.dtsNone.row.tagValue ∧
    0x77bf0749933f >>> Lid.dtsNone.row.padBits = 0x77bf07499300 >>> Lid.dtsNone.row.padBits := by decide

theorem witness_PackedWordsAreInjective :
    Instr.lid (.d 4095 15 31) = some .d ∧
    pack .d (Instr.operands (.d 4095 15 31)) = pack .d (Instr.operands (.d 4095 15 31)) ∧
    encode (.d 4095 15 31) = encode (.d 4095 15 31) := by decide

/-- The `ENC` statements: a state in which `ENC` is presented. -/
theorem witness_EncodeDAndT : (encS 1 {}).op = .enc := rfl
theorem witness_EncodeDTAndDTZ : (encS 3 {}).op = .enc := rfl
theorem witness_EncodeDTS : (encS 5 {}).op = .enc := rfl
theorem witness_EncodeDTSZ : (encS 6 {}).op = .enc := rfl

/-- A word with the tag of each layout: the smallest and the largest, pad bits included. -/
theorem witness_WireFormats :
    (BitVec.extractLsb 23 21 0x800000#24 = 0b100#3 ∧ BitVec.extractLsb 23 21 0x9fffff#24 = 0b100#3) ∧
    (BitVec.extractLsb 23 17 0xa00000#24 = 0b1010000#7 ∧ BitVec.extractLsb 23 17 0xa1ffff#24 = 0b1010000#7) ∧
    (BitVec.extractLsb 39 38 0#40 = 0b00#2 ∧ BitVec.extractLsb 39 38 0x3fffffffff#40 = 0b00#2) ∧
    (BitVec.extractLsb 47 45 0xc00000000000#48 = 0b110#3 ∧ BitVec.extractLsb 47 45 0xdfffffffffff#48 = 0b110#3) ∧
    (BitVec.extractLsb 47 44 0x700000000000#48 = 0b0111#4 ∧ BitVec.extractLsb 47 44 0x7fffffffffff#48 = 0b0111#4) ∧
    (BitVec.extractLsb 55 52 0x40000000000000#56 = 0b0100#4 ∧
      BitVec.extractLsb 55 52 0x4fffffffffffff#56 = 0b0100#4) ∧
    (BitVec.extractLsb 63 60 0x5000000000000000#64 = 0b0101#4 ∧
      BitVec.extractLsb 63 60 0x5fffffffffffffff#64 = 0b0101#4) ∧
    (BitVec.extractLsb 71 68 0x600000000000000000#72 = 0b0110#4 ∧
      BitVec.extractLsb 71 68 0x6fffffffffffffffff#72 = 0b0110#4) ∧
    (BitVec.extractLsb 55 51 0xf8000000000000#56 = 0b11111#5 ∧
      BitVec.extractLsb 55 51 0xffffffffffffff#56 = 0b11111#5) ∧
    (BitVec.extractLsb 63 59 0xe000000000000000#64 = 0b11100#5 ∧
      BitVec.extractLsb 63 59 0xe7ffffffffffffff#64 = 0b11100#5) ∧
    (BitVec.extractLsb 71 67 0xe80000000000000000#72 = 0b11101#5 ∧
      BitVec.extractLsb 71 67 0xefffffffffffffffff#72 = 0b11101#5) ∧
    (BitVec.extractLsb 79 75 0xf0000000000000000000#80 = 0b11110#5 ∧
      BitVec.extractLsb 79 75 0xf7ffffffffffffffffff#80 = 0b11110#5) := by decide

/-- The `DEC` statements: states in which `DEC` and the stream reader are presented. -/
theorem witness_DecodeDAndT : (decS [0x8f, 0x7e, 0x0e]).op = .dec ∧ (streamS [] 0).op = .streamDec := ⟨rfl, rfl⟩
theorem witness_DecodeDTAndDTZ : (decS [0x1e, 0xfc, 0x1d, 0x26, 0x4c]).op = .dec ∧
    (streamS [] 0).op = .streamDec := ⟨rfl, rfl⟩
theorem witness_DecodeDTS : (decS [0x77, 0xbf, 0x07, 0x49, 0x93, 0x00]).op = .dec ∧
    (streamS [] 0).op = .streamDec := ⟨rfl, rfl⟩
theorem witness_DecodeDTSZ : (decS [0xff, 0xff, 0xff, 0xff, 0xff, 0xff, 0xc0]).op = .dec ∧
    (streamS [] 0).op = .streamDec := ⟨rfl, rfl⟩

/-- The premises of `decodesTo`, at no byte and at eleven. -/
theorem witness_DecErrorVectors :
    ((decS []).op = .dec ∧ (decS []).decLen = ([] : List Byte).length ∧
      (decS []).decBytes = portBuffer (([] : List Byte).take 10)) ∧
    ((decS (List.replicate 11 0xf0)).op = .dec ∧ (decS (List.replicate 11 0xf0)).decLen = 11 ∧
      (decS (List.replicate 11 0xf0)).decBytes = portBuffer ((List.replicate 11 0xf0).take 10)) :=
  ⟨⟨rfl, rfl, rfl⟩, ⟨rfl, rfl, rfl⟩⟩

/-- Both ends of the reserved range and the bytes just outside it. -/
theorem witness_TaglenOnEveryByte :
    (tagS 0xa2).op = .taglen ∧ (0xA2 ≤ (tagS 0xa2).tagByte.toNat ∧ (tagS 0xa2).tagByte.toNat ≤ 0xBF) ∧
    (0xA2 ≤ (tagS 0xbf).tagByte.toNat ∧ (tagS 0xbf).tagByte.toNat ≤ 0xBF) ∧
    ¬(0xA2 ≤ (tagS 0xa1).tagByte.toNat ∧ (tagS 0xa1).tagByte.toNat ≤ 0xBF) ∧
    ¬(0xA2 ≤ (tagS 0xc0).tagByte.toNat ∧ (tagS 0xc0).tagByte.toNat ≤ 0xBF) ∧
    Instr.lid (.t 18 25 12) = some .t ∧ Instr.lid (.reserved1010001x 0) = none := by decide

theorem witness_ReservedRowsRaiseInvalidTag :
    (tagS 0xa2).op = .taglen ∧ (decS [0xbf, 1, 2]).op = .dec ∧ (streamS [0xa2] 0).op = .streamDec ∧
    (0xA2 ≤ (0xa2#8).toNat ∧ (0xa2#8).toNat ≤ 0xBF) ∧ (0xA2 ≤ (0xbf#8).toNat ∧ (0xbf#8).toNat ≤ 0xBF) ∧
    (0xA2 ≤ (tagS 0xa2).tagByte.toNat ∧ (tagS 0xa2).tagByte.toNat ≤ 0xBF) ∧
    0 < (decS [0xbf, 1, 2]).decLen ∧
    (0xA2 ≤ ((decS [0xbf, 1, 2]).decBytes.read 0).toNat ∧
      ((decS [0xbf, 1, 2]).decBytes.read 0).toNat ≤ 0xBF) := by decide +kernel

theorem witness_ReservedRowsAreNeverEncoded :
    (encS 1 {}).op = .enc ∧ Instr.lid (.reserved1011xxxx 15) = none ∧
    fetch (encS 1 {}) = .instr (.d 4095 15 31) := by decide +kernel

/-- `DEC` of a value and of a reserved tag, `ENC`, `TAGLEN`, the stream reader. -/
theorem witness_StepRunsDecodedInstruction :
    ((decS [0x8f, 0x7e, 0x0e]).op = .dec ∧
      decode ((decS [0x8f, 0x7e, 0x0e]).decBytes.readBytes 0 (min (decS [0x8f, 0x7e, 0x0e]).decLen 10)) =
        .ok (.d 1983 0 14, []) ∧ (decS [0x8f, 0x7e, 0x0e]).decLen = Instr.length (.d 1983 0 14)) ∧
    (decode ((decS [0xb0, 0, 0]).decBytes.readBytes 0 (min (decS [0xb0, 0, 0]).decLen 10)) =
        .ok (.reserved1011xxxx 0, [0, 0]) ∧ Instr.lid (.reserved1011xxxx 0) = none) ∧
    ((encS 1 { year := some 4094 }).op = .enc ∧
      select (encS 1 { year := some 4094 }).encVreq (encS 1 { year := some 4094 }).slots.present = .ok .d ∧
      fieldCodec codecConfig (encS 1 { year := some 4094 }).slots .d =
        .ok [(.year, 4094), (.month, 15), (.day, 31)]) ∧
    (tagS 0x8f).op = .taglen ∧
    ((streamS p2 3).op = .streamDec ∧
      decode (streamRead (streamS p2 3).stream (streamS p2 3).streamLen (streamS p2 3).cursor
        (Instr.length (.d 4095 15 31))) = .ok (.d 4095 15 31, []) ∧
      exec (.d 4095 15 31) (streamS p2 3) = .next ((streamS p2 3).withOut (.decoded .d {}))) := by
  refine ⟨⟨rfl, by decide +kernel, by decide +kernel⟩, ⟨by decide +kernel, rfl⟩,
    ⟨rfl, by decide +kernel, by decide +kernel⟩, rfl, ⟨rfl, by decide +kernel, ?_⟩⟩
  rw [exec_layout (l := .d) rfl]
  exact congrArg (fun o => Host.Outcome.next ((streamS p2 3).withOut o)) (by decide +kernel)

/-- An instruction that answers, storing bytes under `ENC`. -/
theorem witness_ExecFrame :
    exec (.d 1983 0 14) (encS 1 {}) =
      .next ((encS 1 {}).withOut (.encoded .d (portBuffer [0x8f, 0x7e, 0x0e]))) ∧
    ((encS 1 {}).withOut (.encoded .d (portBuffer [0x8f, 0x7e, 0x0e]))).out =
      .encoded .d (portBuffer [0x8f, 0x7e, 0x0e]) := by
  refine ⟨?_, rfl⟩
  rw [exec_layout (l := .d) rfl]
  exact congrArg (fun o => Host.Outcome.next ((encS 1 {}).withOut o)) (by decide +kernel)

/-- A step of `ENC` that succeeds, said once for the witnesses below. -/
theorem step_enc_example : ∃ t, step (encS 1 exampleSlots) = .next t ∧
    t.out = .encoded .d (portBuffer [0x8f, 0x7e, 0x0e]) := by
  have h : outputOf (encS 1 exampleSlots) = some (.encoded .d (portBuffer [0x8f, 0x7e, 0x0e])) := by
    decide +kernel
  unfold outputOf at h
  split at h
  · exact ⟨_, ‹_›, Option.some.inj h⟩
  · cases h

/-- A step of `DEC` that succeeds. -/
theorem step_dec_example : ∃ t, step (decS [0x8f, 0x7e, 0x0e]) = .next t ∧
    t.out = .decoded .d { year := some 1983, month := some 1, day := some 15 } := by
  have h : outputOf (decS [0x8f, 0x7e, 0x0e]) =
      some (.decoded .d { year := some 1983, month := some 1, day := some 15 }) := by decide +kernel
  unfold outputOf at h
  split at h
  · exact ⟨_, ‹_›, Option.some.inj h⟩
  · cases h

/-- Steps of the stream reader that fail: the stream's end, and a reserved tag. -/
theorem step_stream_example :
    (∃ t, step (streamS p2 7) = .next t ∧ t.out = .failed .shortRead) ∧
    ∃ t, step (streamS [0xa2] 0) = .next t ∧ t.out = .failed .invalidTag := by
  have h := test_stream_short
  obtain ⟨-, h1, h2⟩ := h
  unfold outputOf at h1 h2
  constructor
  · split at h1
    · exact ⟨_, ‹_›, Option.some.inj h1⟩
    · cases h1
  · split at h2
    · exact ⟨_, ‹_›, Option.some.inj h2⟩
    · cases h2

theorem witness_StepFrame : (∃ t, step (encS 1 exampleSlots) = .next t) ∧ (encS 1 exampleSlots).op ≠ .streamDec :=
  ⟨⟨_, step_enc_example.choose_spec.1⟩, by decide⟩

/-- For each operation two different states with the same inputs; the streams agree from their cursors on. -/
theorem witness_OutputsDependOnInputsOnly :
    sameInputs (encS 1 exampleSlots) { encS 1 exampleSlots with tagByte := 7, cursor := 5 } ∧
    sameInputs (tagS 3) { tagS 3 with decLen := 4 } ∧
    sameInputs (decS [0x8f, 0x7e, 0x0e]) { decS [0x8f, 0x7e, 0x0e] with encVreq := 15 } ∧
    sameInputs (streamS p2 3) (streamS [0x9f, 0xff, 0xff, 0x2a] 0) ∧
    (outputOf (streamS p2 3)).isSome = true ∧ (outputOf (streamS [0x9f, 0xff, 0xff, 0x2a] 0)).isSome = true := by
  refine ⟨?_, ?_, ?_, ?_, by decide +kernel, by decide +kernel⟩
  all_goals unfold sameInputs
  · exact ⟨rfl, fun _ => ⟨rfl, rfl⟩, fun h => (by cases h), fun h => (by cases h), fun h => (by cases h)⟩
  · exact ⟨rfl, fun h => (by cases h), fun _ => rfl, fun h => (by cases h), fun h => (by cases h)⟩
  · exact ⟨rfl, fun h => (by cases h), fun h => (by cases h), fun _ => ⟨rfl, fun _ _ => rfl⟩, fun h => (by cases h)⟩
  · exact ⟨rfl, fun h => (by cases h), fun h => (by cases h), fun h => (by cases h), fun _ => ⟨by decide, by decide⟩⟩

theorem witness_RepeatedOperationGivesSameResult :
    (encS 1 exampleSlots).op ≠ .streamDec ∧ ∃ t, step (encS 1 exampleSlots) = .next t :=
  ⟨by decide, ⟨_, step_enc_example.choose_spec.1⟩⟩

theorem witness_EncStepRefinesPseudocode : (encS 15 {}).op = .enc := rfl

/-- Both sides of the equivalence, at the boundary values of `enc_vreq`. -/
theorem witness_UnsupportedTypeExactly :
    (encS 7 {}).op = .enc ∧ 7 ≤ (encS 7 {}).encVreq.toNat ∧ ¬ 7 ≤ (encS 6 {}).encVreq.toNat := by decide

theorem witness_SelectedSubSecondIsPresent :
    select 5 (presentOnly [.millisecond, .nanosecond]) = .ok .dtsNs ∧ Field.nanosecond ∈ Lid.dtsNs.fields ∧
    Field.isSub .nanosecond = true ∧
    select 0 (presentOnly [.millisecond]) = .ok .dtsMs ∧ Field.millisecond ∈ Lid.dtsMs.fields ∧
    fieldIndex .millisecond < fieldIndex .microsecond := by decide

/-- A layout that carries all, one that carries the most precise of two sub-second fields, and one that
does not carry all. -/
theorem witness_InferenceIsSmallestAdequate :
    carriesAll (presentOnly [.year, .tz]) .dtz ∧ carriesAll (presentOnly [.millisecond, .nanosecond]) .dtsNs ∧
    ¬ carriesAll (presentOnly [.year, .hour]) .d := by
  refine ⟨?_, ?_, ?_⟩
  · intro f hf; cases f <;> simp_all [presentOnly] <;> decide
  · intro f hf
    cases f <;> simp_all [presentOnly]
    · exact .inr ⟨rfl, .nanosecond, by decide, rfl, by decide⟩
    · exact .inl (by decide)
  · intro h
    rcases h .hour (by decide) with h | ⟨h, -⟩
    · revert h; decide
    · cases h

/-- Every slot at the top of its range, and every slot absent. -/
theorem witness_EncCompletesWithWireValues :
    let s := encS 6 { year := some 4094, month := some 12, day := some 31, hour := some 23, minute := some 59,
                      second := some 60, tzOffset := some 915, millisecond := some 999,
                      microsecond := some 999999, nanosecond := some 999999999 }
    s.op = .enc ∧ select s.encVreq s.slots.present = .ok .dtszNs ∧ s.slots.inRange := by
  refine ⟨rfl, by decide, ?_⟩
  intro f v h
  cases f <;> cases h <;> decide

/-- One slot out of range behind a slot in range, one at each end of the canonical order. -/
theorem witness_EncNamesFirstOffendingSlot :
    let s := encS 6 { year := some 4095 }
    let s' := encS 1 { year := some 0, tzOffset := some 7 }
    (s.op = .enc ∧ s.encVreq.toNat < 7 ∧ s.slots.get .year = some 4095 ∧ inUserRange .year 4095 = false ∧
      ∀ g w, fieldIndex g < fieldIndex .year → s.slots.get g = some w → inUserRange g w = true) ∧
    (s'.op = .enc ∧ s'.encVreq.toNat < 7 ∧ s'.slots.get .tz = some 7 ∧ inUserRange .tz 7 = false ∧
      ∀ g w, fieldIndex g < fieldIndex .tz → s'.slots.get g = some w → inUserRange g w = true) := by
  refine ⟨⟨rfl, by decide, rfl, by decide, ?_⟩, ⟨rfl, by decide, rfl, by decide, ?_⟩⟩
  · intro g w hg; exact absurd hg (by cases g <;> decide)
  · intro g w hg hw
    cases g <;> first
      | (cases hw; decide)
      | (cases hw; done)
      | exact absurd hg (by decide)

/-- Two calls with the same slots present and different values. -/
theorem witness_EncodedLengthFromSelection :
    (encS 1 exampleSlots).op = .enc ∧
    (∃ t, step (encS 1 exampleSlots) = .next t ∧ t.out = .encoded .d (portBuffer [0x8f, 0x7e, 0x0e])) ∧
    (∀ f, (encS 1 exampleSlots).slots.present f =
      (encS 1 { exampleSlots with year := some 0, second := some 60 }).slots.present f) ∧
    outputOf (encS 1 { exampleSlots with year := some 0, second := some 60 }) =
      some (.encoded .d (portBuffer [0x80, 0x00, 0x0e])) := by
  refine ⟨rfl, step_enc_example, ?_, by decide +kernel⟩
  intro f; cases f <;> rfl

theorem witness_TaglenAgreesWithEnc : (encS 1 exampleSlots).op = .enc ∧
    ∃ t, step (encS 1 exampleSlots) = .next t ∧ t.out = .encoded .d (portBuffer [0x8f, 0x7e, 0x0e]) :=
  ⟨rfl, step_enc_example⟩

theorem witness_EncThenDecGivesSlotsBack : (encS 1 exampleSlots).op = .enc ∧
    ∃ t, step (encS 1 exampleSlots) = .next t ∧ t.out = .encoded .d (portBuffer [0x8f, 0x7e, 0x0e]) :=
  ⟨rfl, step_enc_example⟩

/-- The values of this spec and another usable choice: an unbiased offset, other ranges. -/
theorem witness_RoundTripForEveryConfig :
    codecConfig.Valid ∧ Config.Valid { codecConfig with tzBias := 0, tzStep := 30, second := ⟨0, 59, some 62⟩ } ∧
    encOp codecConfig 1 exampleSlots = .ok (.d, [0x8f#8, 0x7e#8, 0x0e#8]) ∧
    encOp codecConfig 5 { exampleSlots with millisecond := some 123 } =
      .ok (.dtsMs, [0x47#8, 0xbf#8, 0x07#8, 0x49#8, 0x93#8, 0x07#8, 0xb0#8]) := by
  refine ⟨⟨?_, ?_, ?_, by decide⟩, ⟨?_, ?_, ?_, by decide⟩, by decide +kernel, by decide +kernel⟩
  all_goals
    intro f
    cases f <;> simp [Config.desc, codecConfig, Field.width, Field.isSub]

theorem witness_DecStepRefinesPseudocode : (decS []).op = .dec := rfl

/-- Each clause: no byte; a reserved tag; a wrong length; the tag's length. -/
theorem witness_DecChecksInOrder :
    ((decS []).op = .dec ∧ (decS []).decLen = 0) ∧
    (0 < (decS [0xbf]).decLen ∧ tagDispatch ((decS [0xbf]).decBytes.read 0) = none) ∧
    (0 < (decS [0x8f, 0x7e]).decLen ∧ tagDispatch ((decS [0x8f, 0x7e]).decBytes.read 0) = some .d ∧
      (decS [0x8f, 0x7e]).decLen ≠ Lid.d.len) ∧
    (0 < (decS [0x8f, 0x7e, 0x0e]).decLen ∧ tagDispatch ((decS [0x8f, 0x7e, 0x0e]).decBytes.read 0) = some .d ∧
      (decS [0x8f, 0x7e, 0x0e]).decLen = Lid.d.len) := by decide +kernel

/-- A legal value, with a field at its bound and one absent, and an illegal one. -/
theorem witness_DecSucceedsExactlyOnLegalValues :
    (decS []).op = .dec ∧ (streamS [] 0).op = .streamDec ∧ Instr.lid (.d 4094 15 14) = some .d ∧
    Instr.wellFormed codecConfig (.d 4094 15 14) = true ∧ Instr.wellFormed codecConfig (.d 4094 12 14) = false := by
  decide

theorem witness_DecodedRecordsAreConsistent : ∃ t, step (decS [0x8f, 0x7e, 0x0e]) = .next t ∧
    t.out = .decoded .d { year := some 1983, month := some 1, day := some 15 } := step_dec_example

theorem witness_DecThenEncReproducesBytes : (decS [0x8f, 0x7e, 0x0e]).op = .dec ∧
    (∃ t, step (decS [0x8f, 0x7e, 0x0e]) = .next t ∧
      t.out = .decoded .d { year := some 1983, month := some 1, day := some 15 }) ∧
    deserialize ((decS [0x8f, 0x7e, 0x0e]).decBytes.readBytes 0 Lid.d.len) % 2 ^ Lid.d.row.padBits = 0 :=
  ⟨rfl, step_dec_example, by decide +kernel⟩

/-- A value at the cursor, and one with pad bits set. -/
theorem witness_StreamDecodeAdvancesPastValue :
    ((streamS p2 3).op = .streamDec ∧ Instr.lid (.d 4095 15 31) = some .d ∧
      Instr.wellFormed codecConfig (.d 4095 15 31) = true ∧
      decode (streamRead (streamS p2 3).stream (streamS p2 3).streamLen (streamS p2 3).cursor Lid.d.len) =
        .ok (.d 4095 15 31, [])) ∧
    (let s := streamS [0x77, 0xbf, 0x07, 0x49, 0x93, 0x3f] 0
     s.op = .streamDec ∧ Instr.wellFormed codecConfig (.dtsNone 1983 0 14 18 25 12) = true ∧
      decode (streamRead s.stream s.streamLen s.cursor Lid.dtsNone.len) =
        .ok (.dtsNone 1983 0 14 18 25 12, [])) := by decide +kernel

/-- Two `DEC` values of the document and one with pad bits set, by their bytes (S1, the all absent line of D). -/
theorem decodesTo_examples :
    decodesTo [0x8f, 0x7e, 0x0e] (.decoded .d { year := some 1983, month := some 1, day := some 15 }) ∧
    decodesTo [0x9f, 0xff, 0xff] (.decoded .d {}) ∧
    decodesTo [0x77, 0xbf, 0x07, 0x49, 0x93, 0x3f] (.decoded .dtsNone
      { year := some 1983, month := some 1, day := some 15, hour := some 18, minute := some 25,
        second := some 12 }) :=
  ⟨decodesTo_of_decode (i := .d 1983 0 14) (l := .d) rfl (by decide) rfl (by decide +kernel),
   decodesTo_of_decode (i := .d 4095 15 31) (l := .d) rfl (by decide) rfl (by decide +kernel),
   decodesTo_of_decode (i := .dtsNone 1983 0 14 18 25 12) (l := .dtsNone) rfl (by decide +kernel) rfl
     (by decide +kernel)⟩

/-- First clause: the document's stream, two values and one trailing byte.  Second clause: a call that succeeds. -/
theorem witness_StreamWalksConcatenatedValues :
    ((streamS p2 0).op = .streamDec ∧
    (∀ v ∈ ([([0x8f, 0x7e, 0x0e], .d, { year := some 1983, month := some 1, day := some 15 }),
        ([0x9f, 0xff, 0xff], .d, {})] : List (List Byte × Lid × Record)),
      decodesTo v.1 (.decoded v.2.1 v.2.2)) ∧
    streamRead (streamS p2 0).stream (streamS p2 0).streamLen (streamS p2 0).cursor
        ((streamS p2 0).streamLen - (streamS p2 0).cursor) =
      ((([([0x8f, 0x7e, 0x0e], .d, { year := some 1983, month := some 1, day := some 15 }),
        ([0x9f, 0xff, 0xff], .d, {})] : List (List Byte × Lid × Record)).map (·.1)).flatten ++ [0x2a])) ∧
    (∃ t, step (streamS p2 3) = .next t ∧ t.out = .decoded .d {}) := by
  refine ⟨⟨rfl, ?_, by decide +kernel⟩, ?_⟩
  · simp only [List.forall_mem_cons, List.not_mem_nil, false_implies, implies_true, and_true]
    exact ⟨decodesTo_examples.1, decodesTo_examples.2.1⟩
  · have h : outputOf (streamS p2 3) = some (.decoded .d {}) := by decide +kernel
    unfold outputOf at h
    split at h
    · exact ⟨_, ‹_›, Option.some.inj h⟩
    · cases h

/-- A legal value, and one with pad bits set; the second reached by `DEC` of its bytes. -/
theorem witness_DecOfLegalBytesGivesInstructionsRecord :
    (decode [0x9f#8, 0xff#8, 0xff#8] = .ok (.d 4095 15 31, []) ∧ Instr.lid (.d 4095 15 31) = some .d ∧
      Instr.wellFormed codecConfig (.d 4095 15 31) = true) ∧
    (decode [0x77#8, 0xbf#8, 0x07#8, 0x49#8, 0x93#8, 0x3f#8] = .ok (.dtsNone 1983 0 14 18 25 12, []) ∧
      Instr.lid (.dtsNone 1983 0 14 18 25 12) = some .dtsNone ∧
      Instr.wellFormed codecConfig (.dtsNone 1983 0 14 18 25 12) = true) ∧
    (streamS p2 3).op = .streamDec := by decide +kernel

/-- Both clauses: no byte at the cursor, and fewer than the tag implies; and a stream that is long enough. -/
theorem witness_ShortReadExactly :
    (streamS p2 7).op = .streamDec ∧ (∃ t, step (streamS p2 7) = .next t ∧ t.out = .failed .shortRead) ∧
    (streamS p2 7).streamLen ≤ (streamS p2 7).cursor ∧
    (tagDispatch ((streamS p2 6).stream.read 6) = some .dt ∧ (streamS p2 6).streamLen - 6 < Lid.dt.len) ∧
    ¬ (streamS p2 3).streamLen - 3 < Lid.d.len :=
  ⟨rfl, step_stream_example.1, by decide, by decide +kernel, by decide⟩

theorem witness_FailedStreamDecodeLeavesCursorFree : (streamS [0xa2] 0).op = .streamDec ∧
    ∃ t, step (streamS [0xa2] 0) = .next t ∧ t.out = .failed .invalidTag := ⟨rfl, step_stream_example.2⟩

theorem witness_SentinelsAreDisjoint :
    (codecConfig.desc .year).sentinel = some 4095 ∧ 4094 ≤ (codecConfig.desc .year).max ∧
    (codecConfig.desc .tz).sentinel = some 127 ∧ 125 ≤ (codecConfig.desc .tz).max := by decide

/-- The exception itself: the most negative month that a 32-bit port takes. -/
theorem witness_ErrorPayloadFitsPorts :
    State.portsFit codecConfig (encS 1 { month := some (-2147483648) }) ∧
    ∃ t, step (encS 1 { month := some (-2147483648) }) = .next t ∧
      t.out = .failed (.outOfRange .month (-2147483649) 0 11) := by
  refine ⟨⟨?_, by decide⟩, ?_⟩
  · intro f v h
    cases f <;> cases h
    decide
  · have h : outputOf (encS 1 { month := some (-2147483648) }) =
        some (.failed (.outOfRange .month (-2147483649) 0 11)) := by decide +kernel
    unfold outputOf at h
    split at h
    · exact ⟨_, ‹_›, Option.some.inj h⟩
    · cases h

theorem witness_ResetPresentsNothing : State.reset.op = .idle := rfl

/-- A state the invariant holds of, with a value in its buffer and in its stream, and its step. -/
theorem witness_EveryStepKeepsInvariant :
    (decS [0x8f, 0x7e, 0x0e]).Inv ∧ ∃ t, step (decS [0x8f, 0x7e, 0x0e]) = .next t :=
  ⟨⟨by decide +kernel, by decide +kernel, rfl, rfl, trivial⟩, ⟨_, step_dec_example.choose_spec.1⟩⟩

end Sys2Proof.Tests
end

section
/-! The byte order of the wire word (spec/20_memory.md R32): `serialize` and `deserialize` by their last byte,
as inverses of each other, and byte 0 of an encoding. -/

namespace Sys2Proof

/-! ### Serialize and deserialize by their last byte -/

@[simp] theorem serialize_zero (W : Nat) : serialize W 0 = [] := rfl

@[simp] theorem deserialize_nil : deserialize [] = 0 := rfl

/-- The last byte is the low byte of the word; the bytes before it are those of the rest of the word. -/
theorem serialize_succ (W L : Nat) :
    serialize W (L + 1) = serialize (W >>> 8) L ++ [BitVec.ofNat 8 W] := by
  have hbytes : ∀ i ∈ List.range L, BitVec.ofNat 8 (W >>> (8 * (L + 1 - 1 - i))) =
      BitVec.ofNat 8 (W >>> 8 >>> (8 * (L - 1 - i))) := by
    intro i hi
    have hiL : i < L := List.mem_range.mp hi
    rw [← Nat.shiftRight_add, show 8 + 8 * (L - 1 - i) = 8 * (L + 1 - 1 - i) by omega]
  unfold serialize
  rw [List.range_succ, List.map_append, List.map_congr_left hbytes]
  simp

theorem deserialize_append_singleton (bs : List Byte) (b : Byte) :
    deserialize (bs ++ [b]) = deserialize bs * 2 ^ 8 + b.toNat := by
  rw [deserialize, List.foldl_append]
  exact shiftLeft_or_eq_add b.isLt _

/-! ### Closed forms -/

/-- Byte `i` of a serialized word (R32). -/
theorem toNat_getD_serialize (W : Nat) {L i : Nat} (h : i < L) :
    ((serialize W L).getD i 0#8).toNat = (W >>> (8 * (L - 1 - i))) % 2 ^ 8 := by
  simp [serialize, List.getD_eq_getElem?_getD, h]

/-- The word of a byte string is the sum of its bytes shifted to their places (R32). -/
theorem deserialize_eq_sum (bs : List Byte) :
    deserialize bs = ((List.range bs.length).map fun i =>
      (bs.getD i 0#8).toNat <<< (8 * (bs.length - 1 - i))).sum := by
  induction bs using List.reverseRecOn with
  | nil => rfl
  | append_singleton bs b ih =>
    have hshift : ∀ i ∈ List.range bs.length,
        (bs.getD i 0#8).toNat <<< (8 * (bs.length - 1 - i)) * 2 ^ 8 =
          ((bs ++ [b]).getD i 0#8).toNat <<< (8 * (bs.length - i)) := by
      intro i hi
      have hilt : i < bs.length := List.mem_range.mp hi
      rw [List.getD_append _ _ _ _ hilt, ← Nat.shiftLeft_eq, ← Nat.shiftLeft_add,
        show 8 * (bs.length - 1 - i) + 8 = 8 * (bs.length - i) by omega]
    rw [deserialize_append_singleton, ih, ← List.sum_map_mul_right, List.map_congr_left hshift,
      List.length_append, List.length_singleton, List.range_succ, List.map_append, List.sum_append]
    simp

/-! ### The two undo each other -/

theorem deserialize_serialize {W L : Nat} (h : W < 2 ^ (8 * L)) : deserialize (serialize W L) = W := by
  induction L generalizing W with
  | zero =>
    obtain rfl : W = 0 := by simpa using h
    rfl
  | succ L ih =>
    have hhigh : W >>> 8 < 2 ^ (8 * L) := by
      rw [Nat.shiftRight_eq_div_pow, Nat.div_lt_iff_lt_mul (by decide), ← Nat.pow_add]
      exact h
    rw [serialize_succ, deserialize_append_singleton, ih hhigh, BitVec.toNat_ofNat,
      Nat.shiftRight_eq_div_pow, Nat.div_add_mod']

theorem serialize_deserialize (bs : List Byte) : serialize (deserialize bs) bs.length = bs := by
  induction bs using List.reverseRecOn with
  | nil => rfl
  | append_singleton bs b ih =>
    have hhigh : (deserialize bs * 2 ^ 8 + b.toNat) >>> 8 = deserialize bs := by
      rw [Nat.shiftRight_eq_div_pow]; omega
    have hlow : BitVec.ofNat 8 (deserialize bs * 2 ^ 8 + b.toNat) = b :=
      BitVec.eq_of_toNat_eq (by rw [BitVec.toNat_ofNat]; omega)
    rw [List.length_append, List.length_singleton, serialize_succ, deserialize_append_singleton,
      hhigh, hlow, ih]

/-! ### The word of an encoding -/

theorem encode_of_lid {i : Instr} {l : Lid} (h : i.lid = some l) :
    encode i = serialize (pack l i.operands) l.len := by
  rw [encode, h]

theorem Instr.pack_operands_lt (i : Instr) (l : Lid) : pack l i.operands < 2 ^ (8 * l.len) :=
  pack_lt fun f _ => i.get_operands_lt f

theorem deserialize_encode {i : Instr} {l : Lid} (h : i.lid = some l) :
    deserialize (encode i) = pack l i.operands := by
  rw [encode_of_lid h, deserialize_serialize (i.pack_operands_lt l)]

/-- Byte 0 of an encoding is the top byte of its word: nothing lies above it, so no bit is cut off. -/
theorem toNat_getD_encode_zero {i : Instr} {l : Lid} (h : i.lid = some l) :
    ((encode i).getD 0 0#8).toNat = deserialize (encode i) >>> (8 * l.len - 8) := by
  have hlen := l.len_pos
  have htop : pack l i.operands >>> (8 * l.len - 8) < 2 ^ 8 := by
    rw [Nat.shiftRight_eq_div_pow, Nat.div_lt_iff_lt_mul (Nat.two_pow_pos _), ← Nat.pow_add,
      show 8 + (8 * l.len - 8) = 8 * l.len by omega]
    exact i.pack_operands_lt l
  rw [deserialize_encode h, encode_of_lid h, toNat_getD_serialize _ hlen,
    show 8 * (l.len - 1 - 0) = 8 * l.len - 8 by omega, Nat.mod_eq_of_lt htop]

theorem Lid.tagBits_le (l : Lid) : l.row.tagBits ≤ 8 := by cases l <;> decide

/-- Byte 0 of an encoding begins with the tag of its layout (R32, R50). -/
theorem toNat_getD_encode_zero_shiftRight {i : Instr} {l : Lid} (h : i.lid = some l) :
    ((encode i).getD 0 0#8).toNat >>> (8 - l.row.tagBits) = l.row.tagValue := by
  have hlen := l.len_pos
  have htag := l.tagBits_le
  rw [toNat_getD_encode_zero h, deserialize_encode h, ← Nat.shiftRight_add,
    show 8 * l.len - 8 + (8 - l.row.tagBits) = 8 * l.len - l.row.tagBits by omega]
  exact pack_shiftRight fun f _ => i.get_operands_lt f

/-- Settles O7: the closed forms and the two inverses by the last byte of a string, byte 0 of an encoding by
the size of its packed word. -/
theorem wireWordIsBigEndian : Obligations.WireWordIsBigEndian :=
  ⟨fun W _ _ h => toNat_getD_serialize W h, deserialize_eq_sum, fun _ _ => deserialize_serialize,
    fun _ _ h => ⟨toNat_getD_encode_zero h, toNat_getD_encode_zero_shiftRight h⟩,
    serialize_deserialize, by decide⟩

end Sys2Proof
end

section
/-! The map of the 256 values of byte 0 (spec/30_encoding.md R64): the tag dispatcher by a shift, by match and
mask, and the interval of the bytes that select no layout. -/

namespace Sys2Proof

/-! ### Match and mask -/

/-- Masking off the low `k` bits and comparing is comparing what is left above them. -/
theorem and_allOnes_shiftLeft_eq_iff {w k v : Nat} (b : BitVec w) (hk : k ≤ w) (hv : v < 2 ^ (w - k)) :
    b &&& (BitVec.allOnes w <<< k) = BitVec.ofNat w (v <<< k) ↔ b.toNat >>> k = v := by
  have hpow : 2 ^ (w - k) * 2 ^ k = 2 ^ w := by rw [← Nat.pow_add, Nat.sub_add_cancel hk]
  have hshift : v <<< k < 2 ^ w := by
    rw [Nat.shiftLeft_eq, ← hpow]
    exact Nat.mul_lt_mul_of_pos_right hv (Nat.two_pow_pos k)
  have hhigh : b.toNat >>> k <<< k < 2 ^ w := by
    rw [Nat.shiftRight_eq_div_pow, Nat.shiftLeft_eq]
    exact Nat.lt_of_le_of_lt (Nat.div_mul_le_self _ _) b.isLt
  rw [← BitVec.shiftLeft_ushiftRight, ← BitVec.toNat_inj, BitVec.toNat_shiftLeft, BitVec.toNat_ushiftRight,
    BitVec.toNat_ofNat, Nat.mod_eq_of_lt hhigh, Nat.mod_eq_of_lt hshift, Nat.shiftLeft_eq, Nat.shiftLeft_eq,
    Nat.mul_left_inj (Nat.two_pow_pos k).ne']

/-! ### The tag dispatcher -/

/-- A test of the decision tree (R171) as an equation of numbers. -/
theorem extractLsb'_eq_ofNat_iff (b : Byte) (start len v : Nat) :
    b.extractLsb' start len = BitVec.ofNat len v ↔ b.toNat / 2 ^ start % 2 ^ len = v % 2 ^ len := by
  rw [← BitVec.toNat_inj, BitVec.extractLsb'_toNat, BitVec.toNat_ofNat, Nat.shiftRight_eq_div_pow]

/-- A byte begins with the tag of the layout the dispatcher finds. -/
theorem tag_of_tagDispatch {b : Byte} {l : Lid} (h : tagDispatch b = some l) :
    b.toNat >>> (8 - l.row.tagBits) = l.row.tagValue := by
  have hb := b.isLt
  simp only [tagDispatch, extractLsb'_eq_ofNat_iff] at h
  split_ifs at h <;> cases h <;> simp only [Lid.row, Nat.shiftRight_eq_div_pow] <;> omega

theorem tagDispatch_eq_some_iff {b : Byte} {l : Lid} :
    tagDispatch b = some l ↔ b.toNat >>> (8 - l.row.tagBits) = l.row.tagValue :=
  ⟨tag_of_tagDispatch, tagDispatch_of_tag⟩

theorem Lid.tagValue_lt (l : Lid) : l.row.tagValue < 2 ^ l.row.tagBits := by cases l <;> decide

/-- The match and mask of a layout's line: the mask has the tag's bits set, the match is the tag in them (R64). -/
theorem tagDispatch_eq_some_iff_mask (b : Byte) (l : Lid) :
    tagDispatch b = some l ↔
      b &&& (BitVec.allOnes 8 <<< (8 - l.row.tagBits)) =
        BitVec.ofNat 8 (l.row.tagValue <<< (8 - l.row.tagBits)) := by
  have hv : l.row.tagValue < 2 ^ (8 - (8 - l.row.tagBits)) := by
    rw [Nat.sub_sub_self l.tagBits_le]
    exact l.tagValue_lt
  rw [tagDispatch_eq_some_iff, and_allOnes_shiftLeft_eq_iff b (Nat.sub_le _ _) hv]

/-- The bytes of the reserved tag space (R64, R66) are an interval. -/
theorem tagDispatch_eq_none_iff (b : Byte) :
    tagDispatch b = none ↔ 0xA2 ≤ b.toNat ∧ b.toNat ≤ 0xBF := by
  have hb := b.isLt
  constructor
  · intro h
    simp only [tagDispatch, extractLsb'_eq_ofNat_iff] at h
    split_ifs at h
    omega
  · rintro ⟨hlo, hhi⟩
    refine Option.eq_none_iff_forall_ne_some.mpr fun l hl => ?_
    have htag := tag_of_tagDispatch hl
    cases l <;> simp only [Lid.row, Nat.shiftRight_eq_div_pow] at htag <;> omega

/-- Settles O4: a layout's line of the map is its match and mask, the line of no layout is its interval. -/
theorem tagByteSelectsLayout : Obligations.TagByteSelectsLayout := by
  refine ⟨fun b => ?_, by decide⟩
  have line := tagDispatch_eq_some_iff_mask b
  exact ⟨line .dt, line .dtsMs, line .dtsUs, line .dtsNs, line .dtsNone, line .d, line .t,
    tagDispatch_eq_none_iff b, line .dtz, line .dtszMs, line .dtszUs, line .dtszNs, line .dtszNone⟩

end Sys2Proof
end

section
/-! The bytes of `ENC` (spec/42_encoder.md R143 to R155): the packed word in closed form, every field at its bit
position, and the layout of an encoding as the selector's answer. -/

namespace Sys2Proof

/-! ### The packed word in closed form -/

/-- The fields of a list put into a word, each above the widths of the fields after it and the pad bits. -/
def placeFields (w : Wire) (pad : Nat) : List Field → Nat → Nat
  | [], W => W
  | f :: fs, W => placeFields w pad fs (W ||| (w.get f <<< ((fs.map Field.width).sum + pad)))

/-- The wire word of a layout as R144 to R155 write it: the tag and the fields, each shifted to its place. -/
def Lid.closedForm (l : Lid) (w : Wire) : Nat :=
  placeFields w l.row.padBits l.fields (l.row.tagValue <<< ((l.fields.map Field.width).sum + l.row.padBits))

/-- Shifting field by field, as the packer does, is shifting every field to its place. -/
theorem foldl_shiftLeft_eq_placeFields (w : Wire) (pad : Nat) (fs : List Field) (acc : Nat) :
    (fs.foldl (fun acc f => (acc <<< f.width) ||| w.get f) acc) <<< pad =
      placeFields w pad fs (acc <<< ((fs.map Field.width).sum + pad)) := by
  induction fs generalizing acc with
  | nil => simp [placeFields]
  | cons f fs ih =>
    have hbits : ((f :: fs).map Field.width).sum + pad = f.width + ((fs.map Field.width).sum + pad) := by
      rw [List.map_cons, List.sum_cons, Nat.add_assoc]
    rw [List.foldl_cons, ih, placeFields, hbits, Nat.shiftLeft_or_distrib, ← Nat.shiftLeft_add]

theorem pack_eq_closedForm (l : Lid) (w : Wire) : pack l w = l.closedForm w := by
  rw [pack, foldl_shiftLeft_eq_placeFields, Nat.zero_shiftLeft, Nat.zero_or, Lid.closedForm]

/-- Byte 0 of a T value: its seven tag bits, then the top bit of the hour (R145). -/
theorem pack_t_shiftRight (h : BitVec 5) (m sec : BitVec 6) :
    pack .t (Instr.operands (.t h m sec)) >>> 16 = 160 + h.toNat / 16 := by
  have hpack : pack .t (Instr.operands (.t h m sec)) =
      ((((80 <<< 5) ||| h.toNat) <<< 6 ||| m.toNat) <<< 6) ||| sec.toNat := rfl
  have hm := m.isLt
  have hsec := sec.isLt
  rw [hpack, shiftLeft_or_eq_add hsec, shiftLeft_or_eq_add hm, shiftLeft_or_eq_add h.isLt,
    Nat.shiftRight_eq_div_pow]
  omega

theorem head?_encode_t (h : BitVec 5) (m sec : BitVec 6) :
    (encode (.t h m sec)).head? = if h.toNat < 16 then some 0xa0#8 else some 0xa1#8 := by
  have hbyte : (encode (.t h m sec)).head? = some (BitVec.ofNat 8 (160 + h.toNat / 16)) := by
    rw [encode_of_lid rfl, serialize_eq_cons _ (Lid.len_pos _), List.head?_cons, ← pack_t_shiftRight h m sec]
    rfl
  have hh := h.isLt
  rw [hbyte]
  split
  · rw [show h.toNat / 16 = 0 by omega]
  · rw [show h.toNat / 16 = 1 by omega]

namespace Machine

/-! ### The meaning of a layout under `ENC` -/

/-- Under `ENC` an instruction that has a layout puts its encoding on the outputs. -/
theorem encodesTo_of_encode {i : Instr} {l : Lid} {bs : List Byte} (h : i.lid = some l) (hbs : encode i = bs) :
    encodesTo i l bs := by
  intro s hop
  rw [exec_layout h, hop, layoutOutput, ← encode_of_lid h, hbs]

/-- The bytes of `ENC` are those of the closed form, which fits the layout's bits. -/
theorem exec_enc_closedForm (l : Lid) {i : Instr} {W : Nat} (h : i.lid = some l)
    (hW : l.closedForm i.operands = W) :
    W < 2 ^ (8 * l.len) ∧ ∀ s : State, s.op = .enc →
      exec i s = .next (s.withOut (.encoded l (portBuffer (serialize W l.len)))) := by
  rw [← pack_eq_closedForm] at hW
  exact ⟨hW ▸ i.pack_operands_lt l, encodesTo_of_encode h (by rw [encode_of_lid h, hW])⟩

/-- Settles O10: the closed form is the packed word, byte 0 of a T value its top bits. -/
theorem encodeDAndT : Obligations.EncodeDAndT :=
  ⟨fun _ _ _ => ⟨rfl, exec_enc_closedForm .d rfl rfl⟩,
    encodesTo_of_encode rfl (by decide), encodesTo_of_encode rfl (by decide),
    fun _ _ _ => ⟨rfl, exec_enc_closedForm .t rfl rfl⟩,
    encodesTo_of_encode rfl (by decide), encodesTo_of_encode rfl (by decide),
    head?_encode_t⟩

/-- Settles O11: the closed form is the packed word; the tag of DT is 0 and leaves no term. -/
theorem encodeDTAndDTZ : Obligations.EncodeDTAndDTZ := by
  refine ⟨fun Y M D h m sec => ⟨rfl, exec_enc_closedForm .dt rfl ?_⟩,
    encodesTo_of_encode rfl (by decide), encodesTo_of_encode rfl (by decide),
    fun _ _ _ _ _ _ _ => ⟨rfl, exec_enc_closedForm .dtz rfl rfl⟩,
    encodesTo_of_encode rfl (by decide), encodesTo_of_encode rfl (by decide)⟩
  have hyear : (0 <<< 38) ||| (Y.toNat <<< 26) = Y.toNat <<< 26 := by rw [Nat.zero_shiftLeft, Nat.zero_or]
  rw [← hyear]
  rfl

/-- Settles O12: the closed form is the packed word, shifted above the pad bits. -/
theorem encodeDTS : Obligations.EncodeDTS :=
  ⟨fun _ _ _ _ _ _ => ⟨rfl, exec_enc_closedForm .dtsNone rfl rfl⟩,
    encodesTo_of_encode rfl (by decide), encodesTo_of_encode rfl (by decide),
    fun _ _ _ _ _ _ _ => ⟨rfl, exec_enc_closedForm .dtsMs rfl rfl⟩,
    encodesTo_of_encode rfl (by decide), encodesTo_of_encode rfl (by decide),
    fun _ _ _ _ _ _ _ => ⟨rfl, exec_enc_closedForm .dtsUs rfl rfl⟩,
    encodesTo_of_encode rfl (by decide), encodesTo_of_encode rfl (by decide),
    fun _ _ _ _ _ _ _ => ⟨rfl, exec_enc_closedForm .dtsNs rfl rfl⟩,
    encodesTo_of_encode rfl (by decide), encodesTo_of_encode rfl (by decide)⟩

/-- Settles O13: the closed form is the packed word, tz placed above the sub-second field. -/
theorem encodeDTSZ : Obligations.EncodeDTSZ :=
  ⟨fun _ _ _ _ _ _ _ => ⟨rfl, exec_enc_closedForm .dtszNone rfl rfl⟩,
    encodesTo_of_encode rfl (by decide), encodesTo_of_encode rfl (by decide),
    fun _ _ _ _ _ _ _ _ => ⟨rfl, exec_enc_closedForm .dtszMs rfl rfl⟩,
    encodesTo_of_encode rfl (by decide), encodesTo_of_encode rfl (by decide),
    fun _ _ _ _ _ _ _ _ => ⟨rfl, exec_enc_closedForm .dtszUs rfl rfl⟩,
    encodesTo_of_encode rfl (by decide), encodesTo_of_encode rfl (by decide),
    fun _ _ _ _ _ _ _ _ => ⟨rfl, exec_enc_closedForm .dtszNs rfl rfl⟩,
    encodesTo_of_encode rfl (by decide), encodesTo_of_encode rfl (by decide)⟩

/-! ### The layout of an encoding -/

@[simp] theorem Output.lenPort_encoded (l : Lid) (buf : Memory) :
    (Output.encoded l buf).lenPort = some (BitVec.ofNat 4 l.len) := rfl

/-- `ENC` comes to the instruction of the selected layout with the wire values of the field codec (R140). -/
theorem fetchEnc_eq_instr {s : State} {i : Instr} (h : fetchEnc s = .instr i) :
    ∃ l wire, select s.encVreq s.slots.present = .ok l ∧ fieldCodec codecConfig s.slots l = .ok wire ∧
      i = .ofWire l wire := by
  unfold fetchEnc at h
  split at h
  · cases h
  · split at h
    · cases h
    · cases h; exact ⟨_, _, ‹_›, ‹_›, rfl⟩

/-- A step under `ENC` that answers has an error on its outputs, or the encoding of an instruction of the layout
that the selector answers. -/
theorem step_enc_out {s t : State} (hop : s.op = .enc) (hstep : step s = .next t) :
    (∃ e, t.out = .failed e) ∨
      ∃ l i, select s.encVreq s.slots.present = .ok l ∧ t.out = .encoded l (portBuffer (encode i)) := by
  have hretire (o : Output) : retire (s.withOut o) = s.withOut o := retire_of_ne (by simp [hop])
  obtain ⟨hidle, -⟩ | ⟨e, -, rfl⟩ | ⟨i, o, hfetch, hexec, rfl⟩ := step_next hstep
  · simp [hop] at hidle
  · exact .inl ⟨e, by rw [State.raise_eq, hretire, State.withOut_out]⟩
  · have hfetchEnc : fetchEnc s = .instr i := by rwa [fetch, hop] at hfetch
    obtain ⟨l, wire, hselect, -, rfl⟩ := fetchEnc_eq_instr hfetchEnc
    rw [encodesTo_of_encode (Instr.lid_ofWire l wire) rfl s hop] at hexec
    exact .inr ⟨l, _, hselect, by rw [hretire, ← Host.Outcome.next.inj hexec, State.withOut_out]⟩

/-- An encoding on the outputs has the layout the selector answers (R143). -/
theorem select_of_step_encoded {s t : State} {l : Lid} {buf : Memory} (hop : s.op = .enc)
    (hstep : step s = .next t) (hout : t.out = .encoded l buf) :
    select s.encVreq s.slots.present = .ok l := by
  obtain ⟨e, he⟩ | ⟨k, i, hselect, hk⟩ := step_enc_out hop hstep
  · cases he.symm.trans hout
  · cases hk.symm.trans hout
    exact hselect

/-- Settles O37: the selector reads the request and the present bits alone, and its layout is that of the output. -/
theorem encodedLengthFromSelection : Obligations.EncodedLengthFromSelection := by
  refine ⟨fun s t l buf hop hstep hout => ⟨select_of_step_encoded hop hstep hout, by simp [hout]⟩, ?_⟩
  intro s s' t t' l l' buf buf' hop hop' hvreq hpresent hstep hstep' hout hout'
  have hselect := select_of_step_encoded hop hstep hout
  rw [hvreq, funext hpresent, select_of_step_encoded hop' hstep' hout'] at hselect
  cases hselect
  exact ⟨rfl, by simp [hout, hout']⟩

end Machine

end Sys2Proof
end

section
/-! The errors of `ENC` (spec/60_exceptions.md R221, R227): which part of its front half raises `UnsupportedType`. -/

namespace Sys2Proof.Machine

/-- The selector fails on a family name outside the closed set, and in no other way. -/
theorem select_eq_error_iff {vreq : BitVec 4} {p : Field → Bool} {e : ErrorKind} :
    select vreq p = .error e ↔ 7 ≤ vreq.toNat ∧ e = .unsupportedType := by
  unfold select
  split <;> rename_i hvreq
  · simp [hvreq, eq_comm]
  · simp [hvreq]

/-- The error of a slot is an `OutOfRange`. -/
theorem slotRangeError_ne_unsupportedType (c : Config) (f : Field) (v : Int) :
    slotRangeError c f v ≠ .unsupportedType := by
  cases f <;> exact nofun

/-- Whatever the slots hold, the field codec has no `UnsupportedType`. -/
theorem fieldCodec_ne_unsupportedType (c : Config) (s : Slots) (l : Lid) :
    fieldCodec c s l ≠ .error .unsupportedType := by
  unfold fieldCodec
  split <;> rename_i hfirst
  · obtain ⟨f, v, -, -, rfl⟩ := firstSlotError_eq_some hfirst
    exact fun h => slotRangeError_ne_unsupportedType c f v (Except.error.inj h)
  · exact nofun

/-- An error of the front half of `ENC` is the selector's, or else the field codec's on the selected layout (R227). -/
theorem fetchEnc_eq_error_iff {s : State} {e : ErrorKind} :
    fetchEnc s = .error e ↔ select s.encVreq s.slots.present = .error e ∨
      ∃ l, select s.encVreq s.slots.present = .ok l ∧ fieldCodec codecConfig s.slots l = .error e := by
  unfold fetchEnc
  cases select s.encVreq s.slots.present with
  | error e' => simp
  | ok l => cases hcodec : fieldCodec codecConfig s.slots l <;> simp [hcodec]

theorem fetchEnc_eq_unsupportedType_iff {s : State} :
    fetchEnc s = .error .unsupportedType ↔ 7 ≤ s.encVreq.toNat := by
  simp [fetchEnc_eq_error_iff, select_eq_error_iff, fieldCodec_ne_unsupportedType]

/-- A step under `ENC` raises the errors of its front half and no others: a layout's instruction always encodes. -/
theorem step_enc_eq_raise_iff {s : State} {e : ErrorKind} (hop : s.op = .enc) :
    step s = .next (s.raise e) ↔ fetchEnc s = .error e := by
  have hfetch : fetch s = fetchEnc s := by rw [fetch, hop]
  have hretire (o : Output) : retire (s.withOut o) = s.withOut o := retire_of_ne (by simp [hop])
  constructor
  · intro hstep
    obtain ⟨hidle, -⟩ | ⟨e', he', hout⟩ | ⟨i, o, hi, hexec, hout⟩ := step_next hstep
    · simp [hop] at hidle
    · rw [State.raise_eq, State.raise_eq, hretire] at hout
      cases congrArg State.out hout
      rw [← hfetch, he']
    · obtain ⟨l, hl⟩ := lid_of_fetchEnc (hfetch ▸ hi)
      rw [encodesTo_of_encode hl rfl s hop, ← hretire o, ← hout] at hexec
      cases congrArg State.out (Host.Outcome.next.inj hexec)
  · intro he
    rw [step, hfetch, he]
    exact congrArg Host.Outcome.next (hretire _)

/-- Settles O30: of the two parts of the front half of `ENC`, only the selector raises `UnsupportedType`, and it does
so on the request alone. -/
theorem unsupportedTypeExactly : Obligations.UnsupportedTypeExactly :=
  fun _ hop => (step_enc_eq_raise_iff hop).trans fetchEnc_eq_unsupportedType_iff

end Sys2Proof.Machine
end

section
/-! The decoder against the encoder (spec/30_encoding.md R50, R67, R68; spec/42_encoder.md R141; spec/44_decoder.md
R183): what `decode` answers, said once, and `pack` and `unpack` as inverses of each other up to the pad bits. -/

namespace Sys2Proof

/-! ### Wire values by field -/

theorem Lid.nodup_fields (l : Lid) : l.fields.Nodup := by cases l <;> decide

/-- A list of wire values without repeated fields is its own values, field by field. -/
theorem Wire.map_get {w : Wire} (h : (w.map Prod.fst).Nodup) :
    ((w.map Prod.fst).map fun f => (f, w.get f)) = w := by
  induction w with
  | nil => rfl
  | cons p w ih =>
    obtain ⟨f, v⟩ := p
    rw [List.map_cons, List.nodup_cons] at h
    obtain ⟨hf, hw⟩ := h
    have hother : ∀ g ∈ w.map Prod.fst, (g, Wire.get ((f, v) :: w) g) = (g, Wire.get w g) := by
      intro g hg
      rw [Wire.get, if_neg (ne_of_mem_of_not_mem hg hf).symm]
    rw [List.map_cons, List.map_cons, List.map_congr_left hother, ih hw, Wire.get, if_pos rfl]

/-- An instruction of a layout is determined by its wire values. -/
theorem Instr.eq_of_operands_eq {i j : Instr} {l : Lid} (hi : i.lid = some l) (hj : j.lid = some l)
    (h : i.operands = j.operands) : i = j := by
  rw [← Instr.ofWire_operands hi, h, Instr.ofWire_operands hj]

/-! ### unpack -/

theorem map_fst_unpackFields (fs : List Field) (acc : Nat) : (unpackFields fs acc).map Prod.fst = fs := by
  induction fs generalizing acc with
  | nil => rfl
  | cons f fs ih => rw [unpackFields, List.map_cons, ih]

@[simp] theorem map_fst_unpack (l : Lid) (W : Nat) : (unpack l W).map Prod.fst = l.fields := by
  rw [unpack, List.map_reverse, map_fst_unpackFields, List.reverse_reverse]

theorem unpack_eq_map_get (l : Lid) (W : Nat) :
    (l.fields.map fun f => (f, (unpack l W).get f)) = unpack l W := by
  have h := Wire.map_get (w := unpack l W) (by rw [map_fst_unpack]; exact l.nodup_fields)
  rwa [map_fst_unpack] at h

theorem lt_of_mem_unpackFields {fs : List Field} {acc : Nat} {p : Field × Nat}
    (h : p ∈ unpackFields fs acc) : p.2 < 2 ^ p.1.width := by
  induction fs generalizing acc with
  | nil => cases h
  | cons f fs ih =>
    rcases List.mem_cons.mp h with rfl | h
    · simp only [and_mask]; exact Nat.mod_lt _ (Nat.two_pow_pos _)
    · exact ih h

/-- An unpacked value fits the width of its field. -/
theorem get_unpack_lt {l : Lid} (W : Nat) {f : Field} (hf : f ∈ l.fields) :
    (unpack l W).get f < 2 ^ f.width := by
  have hmem : (f, (unpack l W).get f) ∈ unpack l W := by
    have h := List.mem_map_of_mem (f := fun f => (f, (unpack l W).get f)) hf
    rwa [unpack_eq_map_get] at h
  exact lt_of_mem_unpackFields (List.mem_reverse.mp hmem)

theorem operands_ofWire_unpack (l : Lid) (W : Nat) : (Instr.ofWire l (unpack l W)).operands = unpack l W := by
  rw [Instr.operands_ofWire fun _ hf => get_unpack_lt W hf, unpack_eq_map_get]

/-- `unpack` drops the pad bits unread (R67). -/
theorem unpack_congr {l : Lid} {W W' : Nat} (h : W >>> l.row.padBits = W' >>> l.row.padBits) :
    unpack l W = unpack l W' := by
  rw [unpack, unpack, h]

/-! ### pack after unpack -/

/-- The loop of the packer undoes the walk of the unpacker. -/
theorem foldl_unpackFields (rs : List Field) (acc : Nat) :
    (unpackFields rs acc).reverse.foldl (fun a p => (a <<< p.1.width) ||| p.2)
      (acc >>> (rs.map Field.width).sum) = acc := by
  induction rs generalizing acc with
  | nil => rfl
  | cons f rs ih =>
    rw [unpackFields, List.reverse_cons, List.foldl_append, List.map_cons, List.sum_cons,
      Nat.shiftRight_add, ih, List.foldl_cons, List.foldl_nil, and_mask,
      shiftLeft_or_eq_add (Nat.mod_lt _ (Nat.two_pow_pos _)), Nat.shiftRight_eq_div_pow, Nat.div_add_mod']

/-- `pack` undoes `unpack` on a word that begins with the layout's tag, with zeros for its pad bits. -/
theorem pack_unpack {l : Lid} {W : Nat} (h : W >>> (8 * l.len - l.row.tagBits) = l.row.tagValue) :
    pack l (unpack l W) = W >>> l.row.padBits <<< l.row.padBits := by
  have hbits := l.bits
  have hsum : (l.fields.reverse.map Field.width).sum = (l.fields.map Field.width).sum := by
    rw [List.map_reverse, List.sum_reverse]
  have htag : (0 <<< l.row.tagBits ||| l.row.tagValue) =
      W >>> l.row.padBits >>> (l.fields.reverse.map Field.width).sum := by
    rw [Nat.zero_shiftLeft, Nat.zero_or, hsum, ← Nat.shiftRight_add, ← h]
    congr 1; omega
  have hfold := foldl_unpackFields l.fields.reverse (W >>> l.row.padBits)
  rw [← unpack, ← unpack_eq_map_get, List.foldl_map] at hfold
  rw [pack, htag, hfold]

theorem pack_mod_padBits (l : Lid) (w : Wire) : pack l w % 2 ^ l.row.padBits = 0 := by
  rw [pack, Nat.shiftLeft_eq, Nat.mul_mod_left]

theorem pack_unpack_of_pad_zero {l : Lid} {W : Nat} (h : W >>> (8 * l.len - l.row.tagBits) = l.row.tagValue)
    (hpad : W % 2 ^ l.row.padBits = 0) : pack l (unpack l W) = W := by
  rw [pack_unpack h, Nat.shiftRight_eq_div_pow, Nat.shiftLeft_eq,
    Nat.div_mul_cancel (Nat.dvd_of_mod_eq_zero hpad)]

/-! ### What decode answers -/

/-- A word of a layout's length that begins with its tag decodes to the layout's instruction. -/
theorem decode_serialize_append {l : Lid} {W : Nat} (hW : W < 2 ^ (8 * l.len))
    (htag : W >>> (8 * l.len - l.row.tagBits) = l.row.tagValue) (rest : List Byte) :
    decode (serialize W l.len ++ rest) = .ok (.ofWire l (unpack l W), rest) := by
  have hbytes := serialize_eq_cons W l.len_pos
  have hdecode := decode_append (rest := rest) (tagDispatch_head hW htag)
    (by rw [← hbytes, length_serialize])
  rwa [← hbytes, deserialize_serialize hW] at hdecode

theorem Instr.length_of_lid {i : Instr} {l : Lid} (h : i.lid = some l) : i.length = l.len := by
  rw [Instr.length, h]

theorem Instr.length_of_lid_none {i : Instr} (h : i.lid = none) : i.length = 1 := by
  rw [Instr.length, h]

theorem lid_reservedInstr (b : Byte) : (reservedInstr b).lid = none := by
  unfold reservedInstr; split_ifs <;> rfl

theorem encode_reservedInstr {b : Byte} (h : tagDispatch b = none) : encode (reservedInstr b) = [b] := by
  revert b; decide +kernel

theorem tagDispatch_reservedByte {i : Instr} (h : i.lid = none) : tagDispatch i.reservedByte = none := by
  cases i with
  | reserved1010001x x => revert x; decide
  | reserved101001xx x => revert x; decide
  | reserved10101xxx x => revert x; decide
  | reserved1011xxxx x => revert x; decide
  | _ => cases h

theorem reservedInstr_reservedByte {i : Instr} (h : i.lid = none) : reservedInstr i.reservedByte = i := by
  cases i with
  | reserved1010001x x => revert x; decide
  | reserved101001xx x => revert x; decide
  | reserved10101xxx x => revert x; decide
  | reserved1011xxxx x => revert x; decide
  | _ => cases h

theorem decode_reserved {b : Byte} (h : tagDispatch b = none) (bs : List Byte) :
    decode (b :: bs) = .ok (reservedInstr b, bs) := by
  rw [decode, h]

theorem decode_layout {b : Byte} {bs : List Byte} {l : Lid} (h : tagDispatch b = some l) :
    decode (b :: bs) = if (b :: bs).length < l.len then .error (.short l)
      else .ok (.ofWire l (unpack l (deserialize ((b :: bs).take l.len))), (b :: bs).drop l.len) := by
  rw [decode, h]

/-- A byte string that holds no value at its head is empty or shorter than the layout of its first byte. -/
theorem decode_eq_error_iff {bs : List Byte} :
    (∃ e, decode bs = .error e) ↔
      bs = [] ∨ ∃ b bs' l, bs = b :: bs' ∧ tagDispatch b = some l ∧ bs.length < l.len := by
  cases bs with
  | nil => simp [decode]
  | cons b bs =>
    cases hb : tagDispatch b with
    | none => simp [decode_reserved hb, hb]
    | some l =>
      rw [decode_layout hb]
      split <;> simp_all

/-- Everything a decode can answer: a reserved byte, or a layout's bytes (R66, R68). -/
theorem decode_eq_ok {bs rest : List Byte} {i : Instr} (h : decode bs = .ok (i, rest)) :
    (∃ b, tagDispatch b = none ∧ bs = b :: rest ∧ i = reservedInstr b) ∨
    (∃ l b bs', tagDispatch b = some l ∧ (b :: bs').length = l.len ∧ bs = (b :: bs') ++ rest ∧
      i = .ofWire l (unpack l (deserialize (b :: bs')))) := by
  cases bs with
  | nil => cases h
  | cons b bs =>
    cases hb : tagDispatch b with
    | none =>
      rw [decode_reserved hb] at h
      cases h
      exact .inl ⟨b, hb, rfl, rfl⟩
    | some l =>
      rw [decode_layout hb] at h
      split at h
      · cases h
      · rename_i hlen
        cases h
        have hcons : (b :: bs).take l.len = b :: bs.take (l.len - 1) := by
          rw [show l.len = l.len - 1 + 1 from (Nat.sub_add_cancel l.len_pos).symm]; rfl
        refine .inr ⟨l, b, bs.take (l.len - 1), hb, ?_, ?_, by rw [hcons]⟩
        · rw [← hcons, List.length_take, Nat.min_eq_left (Nat.le_of_not_lt hlen)]
        · rw [← hcons, List.take_append_drop]

/-- The bytes an instruction was read from, apart from the bytes after it. -/
theorem decode_eq_ok_split {bs rest : List Byte} {i : Instr} (h : decode bs = .ok (i, rest)) :
    ∃ v, bs = v ++ rest ∧ v.length = i.length ∧ ∀ rest', decode (v ++ rest') = .ok (i, rest') := by
  obtain ⟨b, hb, rfl, rfl⟩ | ⟨l, b, bs', hb, hlen, rfl, rfl⟩ := decode_eq_ok h
  · exact ⟨[b], rfl, (Instr.length_of_lid_none (lid_reservedInstr b)).symm, decode_reserved hb⟩
  · exact ⟨b :: bs', rfl, hlen.trans (Instr.length_of_lid (Instr.lid_ofWire _ _)).symm,
      fun _ => decode_append hb hlen⟩

/-- The first byte of a string is what is left when the others are shifted out. -/
theorem deserialize_cons_shiftRight (b : Byte) (bs : List Byte) :
    deserialize (b :: bs) >>> (8 * bs.length) = b.toNat := by
  induction bs using List.reverseRecOn with
  | nil => simp [deserialize]
  | append_singleton bs c ih =>
    have hlow : deserialize (b :: (bs ++ [c])) >>> 8 = deserialize (b :: bs) := by
      rw [← List.cons_append, deserialize_append_singleton, Nat.shiftRight_eq_div_pow]
      omega
    rw [List.length_append, List.length_singleton, Nat.mul_add, Nat.add_comm, Nat.shiftRight_add, hlow, ih]

/-- The word of bytes that begin with a layout's tag begins with that tag. -/
theorem deserialize_shiftRight_tag {b : Byte} {bs : List Byte} {l : Lid} (hb : tagDispatch b = some l)
    (hlen : (b :: bs).length = l.len) :
    deserialize (b :: bs) >>> (8 * l.len - l.row.tagBits) = l.row.tagValue := by
  have htag := l.tagBits_le
  have hshift : 8 * l.len - l.row.tagBits = 8 * bs.length + (8 - l.row.tagBits) := by
    rw [← hlen, List.length_cons]; omega
  rw [hshift, Nat.shiftRight_add, deserialize_cons_shiftRight]
  exact tag_of_tagDispatch hb

/-! ### The obligations on the bytes of an instruction -/

/-- Settles O1: a reserved byte is its own row; of a layout's bytes, the word is the packed word, which `unpack`
takes apart into the operands. -/
theorem decodeEncodeRoundTrip : Obligations.DecodeEncodeRoundTrip := by
  intro i rest
  cases hl : i.lid with
  | none =>
    have henc : encode i = [i.reservedByte] := by rw [encode, hl]
    rw [henc, List.singleton_append, decode_reserved (tagDispatch_reservedByte hl), reservedInstr_reservedByte hl]
  | some l =>
    have hw : ∀ f ∈ l.fields, Wire.get i.operands f < 2 ^ f.width := fun f _ => i.get_operands_lt f
    rw [encode_of_lid hl, decode_serialize_append (pack_lt hw) (pack_shiftRight hw), unpack_pack hw,
      Instr.operands_eq hl, Instr.ofWire_operands hl]

/-- Settles O2: a layout's bytes are those of their word, which `pack` builds again from its fields. -/
theorem encodeDecodeCanonical : Obligations.EncodeDecodeCanonical := by
  intro bs rest i hdecode hpad
  obtain ⟨b, hb, rfl, rfl⟩ | ⟨l, b, bs', hb, hlen, rfl, rfl⟩ := decode_eq_ok hdecode
  · rw [encode_reservedInstr hb, List.singleton_append]
  · have hzero := hpad l (Instr.lid_ofWire _ _)
    rw [← hlen, List.take_left] at hzero
    rw [encode_of_lid (Instr.lid_ofWire _ _), operands_ofWire_unpack,
      pack_unpack_of_pad_zero (deserialize_shiftRight_tag hb hlen) hzero, ← hlen, serialize_deserialize]

/-- Settles O8: the packer ends by shifting in zeros, the unpacker begins by shifting them out. -/
theorem padBitsWrittenZeroReadIgnored : Obligations.PadBitsWrittenZeroReadIgnored := by
  refine ⟨fun i l hl => by rw [deserialize_encode hl, pack_mod_padBits], ?_⟩
  intro l W W' rest hW hW' htag hpad
  have hbits := l.bits
  have htag' : W' >>> (8 * l.len - l.row.tagBits) = l.row.tagValue := by
    rw [show 8 * l.len - l.row.tagBits = l.row.padBits + (l.fields.map Field.width).sum by omega,
      Nat.shiftRight_add] at htag ⊢
    rw [← hpad, htag]
  rw [decode_serialize_append hW htag, decode_serialize_append hW' htag', unpack_congr hpad]

/-- Settles O9: `unpack` and `decode` are left inverses; the last clause is a T value and a DT value with the
word `0xA00000`. -/
theorem packedWordsAreInjective : Obligations.PackedWordsAreInjective := by
  refine ⟨fun i j l hi hj hpack => Instr.eq_of_operands_eq hi hj ?_, fun i j henc => ?_,
    .t 0 0 0, .dt 0 2 16 0 0 0, .t, .dt, rfl, rfl, by decide, by decide⟩
  · have hunpack (k : Instr) (hk : k.lid = some l) : unpack l (pack l k.operands) = k.operands := by
      rw [unpack_pack fun f _ => k.get_operands_lt f, Instr.operands_eq hk]
    rw [← hunpack i hi, hpack, hunpack j hj]
  · have hi := decodeEncodeRoundTrip i []
    rw [henc, decodeEncodeRoundTrip j []] at hi
    cases hi
    rfl

/-! ### The formats by bit ranges -/

/-- Each field with the word shifted down to it, the bits above it still there. -/
def shiftedFields (pad W : Nat) : List Field → Wire
  | [] => []
  | f :: fs => (f, W >>> ((fs.map Field.width).sum + pad)) :: shiftedFields pad W fs

theorem unpackFields_append (fs gs : List Field) (acc : Nat) :
    unpackFields (fs ++ gs) acc =
      unpackFields fs acc ++ unpackFields gs (acc >>> (fs.map Field.width).sum) := by
  induction fs generalizing acc with
  | nil => rfl
  | cons f fs ih =>
    rw [List.cons_append, unpackFields, unpackFields, ih, List.map_cons, List.sum_cons, Nat.shiftRight_add,
      List.cons_append]

/-- The walk of the unpacker, in wire order, cuts every field out at its place. -/
theorem reverse_unpackFields (pad W : Nat) (fs : List Field) :
    (unpackFields fs.reverse (W >>> pad)).reverse =
      (shiftedFields pad W fs).map fun p => (p.1, p.2 % 2 ^ p.1.width) := by
  induction fs with
  | nil => rfl
  | cons f fs ih =>
    have hshift : W >>> pad >>> (fs.reverse.map Field.width).sum = W >>> ((fs.map Field.width).sum + pad) := by
      rw [List.map_reverse, List.sum_reverse, ← Nat.shiftRight_add, Nat.add_comm]
    rw [List.reverse_cons, unpackFields_append, List.reverse_append, ih, hshift, unpackFields, and_mask]
    rfl

theorem Wire.get_map_mod (w : Wire) (f : Field) :
    Wire.get (w.map fun p => (p.1, p.2 % 2 ^ p.1.width)) f = Wire.get w f % 2 ^ f.width := by
  induction w with
  | nil => simp [Wire.get]
  | cons p w ih =>
    by_cases hp : p.1 = f
    · simp [Wire.get, hp]
    · simp [Wire.get, hp, ih]

/-- Cutting the values to their widths does not change the instruction: its operands are cut anyway. -/
theorem Instr.ofWire_map_mod (l : Lid) (w : Wire) :
    Instr.ofWire l (w.map fun p => (p.1, p.2 % 2 ^ p.1.width)) = Instr.ofWire l w := by
  have hcut (n k : Nat) : BitVec.ofNat n (k % 2 ^ n) = BitVec.ofNat n k :=
    BitVec.eq_of_toNat_eq (by simp)
  cases l <;> simp only [Instr.ofWire, Wire.get_map_mod] <;> simp only [Field.width, hcut]

/-- The instruction read from a word has every field at the bits its place in the layout says. -/
theorem ofWire_unpack_eq_shiftedFields (l : Lid) (W : Nat) :
    Instr.ofWire l (unpack l W) = Instr.ofWire l (shiftedFields l.row.padBits W l.fields) := by
  rw [unpack, reverse_unpackFields, Instr.ofWire_map_mod]

/-- The top bits of a word, as its number shifted down. -/
theorem toNat_shiftRight_eq_of_extractLsb {n hi lo v : Nat} {W : BitVec n} (hhi : hi + 1 = n) (hlo : lo ≤ hi)
    (h : W.extractLsb hi lo = BitVec.ofNat _ v) (hv : v < 2 ^ (hi - lo + 1)) : W.toNat >>> lo = v := by
  have hnat := congrArg BitVec.toNat h
  have hlt : W.toNat >>> lo < 2 ^ (hi - lo + 1) := by
    rw [Nat.shiftRight_eq_div_pow, Nat.div_lt_iff_lt_mul (Nat.two_pow_pos _), ← Nat.pow_add,
      show hi - lo + 1 + lo = n by omega]
    exact W.isLt
  rwa [BitVec.extractLsb_toNat, BitVec.toNat_ofNat, Nat.mod_eq_of_lt hlt, Nat.mod_eq_of_lt hv] at hnat

theorem Lid.tagBits_pos (l : Lid) : 1 ≤ l.row.tagBits := by cases l <;> decide

/-- A word that begins with a layout's tag decodes to the instruction of its bit ranges, whatever its pad bits. -/
theorem decode_word (l : Lid) {n hi lo : Nat} {W : BitVec n} {i : Instr} (hn : n = 8 * l.len) (hhi : hi + 1 = n)
    (hlo : lo + l.row.tagBits = n) (htag : W.extractLsb hi lo = BitVec.ofNat _ l.row.tagValue)
    (hfields : Instr.ofWire l (shiftedFields l.row.padBits W.toNat l.fields) = i) (rest : List Byte) :
    decode (serialize W.toNat l.len ++ rest) = .ok (i, rest) := by
  have hpos := l.tagBits_pos
  have hvalue : l.row.tagValue < 2 ^ (hi - lo + 1) := by
    rw [show hi - lo + 1 = l.row.tagBits by omega]
    exact l.tagValue_lt
  have hshift := toNat_shiftRight_eq_of_extractLsb hhi (by omega) htag hvalue
  subst hn
  rw [show lo = 8 * l.len - l.row.tagBits by omega] at hshift
  rw [decode_serialize_append W.isLt hshift, ofWire_unpack_eq_shiftedFields, hfields]

/-- Settles O14: the decoder cuts every field out at its place; per layout the places are the rule's bit ranges. -/
theorem wireFormats : Obligations.WireFormats :=
  ⟨⟨rfl, rfl⟩, fun _ rest htag => decode_word .d rfl rfl rfl htag rfl rest,
    ⟨rfl, rfl⟩, fun _ rest htag => decode_word .t rfl rfl rfl htag rfl rest,
    ⟨rfl, rfl⟩, fun _ rest htag => decode_word .dt rfl rfl rfl htag rfl rest,
    ⟨rfl, rfl⟩, fun _ rest htag => decode_word .dtz rfl rfl rfl htag rfl rest,
    ⟨rfl, rfl⟩, fun _ rest htag => decode_word .dtsNone rfl rfl rfl htag rfl rest,
    ⟨rfl, rfl⟩, fun _ rest htag => decode_word .dtsMs rfl rfl rfl htag rfl rest,
    ⟨rfl, rfl⟩, fun _ rest htag => decode_word .dtsUs rfl rfl rfl htag rfl rest,
    ⟨rfl, rfl⟩, fun _ rest htag => decode_word .dtsNs rfl rfl rfl htag rfl rest,
    ⟨rfl, rfl⟩, fun _ rest htag => decode_word .dtszNone rfl rfl rfl htag rfl rest,
    ⟨rfl, rfl⟩, fun _ rest htag => decode_word .dtszMs rfl rfl rfl htag rfl rest,
    ⟨rfl, rfl⟩, fun _ rest htag => decode_word .dtszUs rfl rfl rfl htag rfl rest,
    ⟨rfl, rfl⟩, fun _ rest htag => decode_word .dtszNs rfl rfl rfl htag rfl rest⟩

/-! ### Tags and the layout table -/

/-- Settles O3: each word is run through the decoder. -/
theorem specWordsDecode : Obligations.SpecWordsDecode := by
  unfold Obligations.SpecWordsDecode
  decide +kernel

/-- The byte that begins with a layout's tag and has zeros after it dispatches to the layout of every tag that begins
that tag. -/
theorem tagDispatch_of_tag_begins {l l' : Lid} (hbits : l.row.tagBits ≤ l'.row.tagBits)
    (hbegins : l'.row.tagValue >>> (l'.row.tagBits - l.row.tagBits) = l.row.tagValue) :
    tagDispatch (BitVec.ofNat 8 (l'.row.tagValue <<< (8 - l'.row.tagBits))) = some l := by
  have hle := l'.tagBits_le
  have hbyte : l'.row.tagValue <<< (8 - l'.row.tagBits) < 2 ^ 8 := by
    have hpow : 2 ^ 8 = 2 ^ l'.row.tagBits * 2 ^ (8 - l'.row.tagBits) := by
      rw [← Nat.pow_add, Nat.add_sub_cancel' hle]
    rw [Nat.shiftLeft_eq, hpow]
    exact Nat.mul_lt_mul_of_pos_right l'.tagValue_lt (Nat.two_pow_pos _)
  rw [tagDispatch_eq_some_iff, BitVec.toNat_ofNat, Nat.mod_eq_of_lt hbyte, ← hbegins,
    show 8 - l.row.tagBits = (8 - l'.row.tagBits) + (l'.row.tagBits - l.row.tagBits) by omega,
    Nat.shiftRight_add, Nat.shiftLeft_shiftRight]

/-- Settles O5: a tag that begins another would be a byte that the dispatcher sends to two layouts; the
counts run the dispatcher on the 256 bytes. -/
theorem tagsArePrefixFree : Obligations.TagsArePrefixFree := by
  refine ⟨fun l l' hne hbits hbegins => hne ?_, fun b l => tagDispatch_eq_some_iff,
    by decide +kernel, by decide +kernel⟩
  have hl := tagDispatch_of_tag_begins hbits hbegins
  have hl' := tagDispatch_of_tag_begins (l := l') le_rfl (by rw [Nat.sub_self, Nat.shiftRight_zero])
  exact Option.some.inj (hl.symm.trans hl')

theorem Lid.ofNat?_toNat (l : Lid) : Lid.ofNat? l.toNat = some l := by cases l <;> rfl

theorem Lid.ofNat?_eq_none {n : Nat} (h : 12 ≤ n) : Lid.ofNat? n = none := by
  obtain ⟨k, rfl⟩ := Nat.exists_eq_add_of_le' h
  rfl

/-- Settles O6: the bit budget row by row, the select by its twelve numbers. -/
theorem layoutTableBitBudget : Obligations.LayoutTableBitBudget :=
  ⟨fun l => ⟨l.bits, l.tagValue_lt⟩, Lid.ofNat?_toNat, fun _ => Lid.ofNat?_eq_none⟩

end Sys2Proof
end

section
/-! Every step in closed form (spec/10_state.md R10, R11, R226; spec/20_memory.md R34, R42): the output is a
function of the instruction the operation comes to, and nothing else moves but the cursor of the stream reader. -/

namespace Sys2Proof.Machine

/-! ### The output of an instruction and of a step -/

/-- What an instruction puts on the outputs when it answers: its layout's output, `InvalidTag` for a reserved row. -/
def instrOutput (i : Instr) (op : Op) : Output :=
  match i.lid with
  | some l => layoutOutput l i.operands op
  | none => .failed .invalidTag

/-- What an operation that has come to `f` puts on the outputs. -/
def Fetch.output (op : Op) : Fetch → Output
  | .nothing => .noValue
  | .error e => .failed e
  | .instr i => instrOutput i op

theorem instrOutput_of_lid {i : Instr} {l : Lid} (h : i.lid = some l) (op : Op) :
    instrOutput i op = layoutOutput l i.operands op := by
  rw [instrOutput, h]

theorem instrOutput_of_lid_none {i : Instr} (h : i.lid = none) (op : Op) :
    instrOutput i op = .failed .invalidTag := by
  rw [instrOutput, h]

theorem exec_dec {i : Instr} {l : Lid} (h : i.lid = some l) {s : State} (hop : s.op = .dec ∨ s.op = .streamDec) :
    exec i s = .next (s.withOut (layoutOutput l i.operands .dec)) := by
  rw [exec_layout h]
  obtain hop | hop := hop
  · rw [hop]
  · rw [hop]; rfl

/-- Only when nothing is presented does the front half come to nothing. -/
theorem op_idle_of_fetch_nothing {s : State} (h : fetch s = .nothing) : s.op = .idle := by
  have hstep : step s = .next (s.withOut .noValue) := by rw [step, h]
  obtain ⟨hop, -⟩ | ⟨e, he, -⟩ | ⟨i, o, hi, -⟩ := step_next hstep
  · exact hop
  · cases h.symm.trans he
  · cases h.symm.trans hi

theorem exec_of_fetch {s : State} {i : Instr} (h : fetch s = .instr i) :
    exec i s = .next (s.withOut (instrOutput i s.op)) := by
  cases hl : i.lid with
  | some l => rw [exec_layout hl, instrOutput_of_lid hl]
  | none =>
    have hop : s.op = .taglen ∨ s.op = .dec ∨ s.op = .streamDec := by
      cases hop : s.op with
      | idle => rw [fetch, hop] at h; cases h
      | enc =>
        rw [fetch, hop] at h
        obtain ⟨l, hl'⟩ := lid_of_fetchEnc h
        cases hl.symm.trans hl'
      | taglen => exact .inl rfl
      | dec => exact .inr (.inl rfl)
      | streamDec => exact .inr (.inr rfl)
    rw [exec_reserved_raise hl hop, instrOutput_of_lid_none hl, State.raise_eq]

/-- A step in closed form: the output of what its operation comes to; then the stream reader settles its cursor. -/
theorem step_eq (s : State) : step s = .next (retire (s.withOut ((fetch s).output s.op))) := by
  unfold step
  split
  next hf => rw [hf, Fetch.output, retire_of_ne (by simp [op_idle_of_fetch_nothing hf])]
  next e hf => rw [hf, Fetch.output, State.raise_eq]
  next i hf => rw [hf, exec_of_fetch hf, Fetch.output]

/-- Away from the stream reader a step changes the outputs only. -/
theorem step_eq_withOut {s : State} (h : s.op ≠ .streamDec) :
    step s = .next (s.withOut ((fetch s).output s.op)) := by
  rw [step_eq, retire_of_ne (s := s.withOut ((fetch s).output s.op)) h]

/-! ### Settling the cursor -/

/-- Retiring a step moves the cursor and the counter at most, and for no operation but the stream reader's. -/
theorem retire_eq (s : State) : ∃ c d, retire s = (s.withCursor c).withDraws d ∧ s.cursor ≤ c ∧
    (s.op ≠ .streamDec → c = s.cursor ∧ d = s.draws) := by
  by_cases hop : s.op = .streamDec
  · simp only [retire, hop, settleCursor]
    split
    · exact ⟨_, s.draws, rfl, Nat.le_add_right _ _, fun h => absurd rfl h⟩
    · exact ⟨_, _, rfl, Nat.le_add_right _ _, fun h => absurd rfl h⟩
  · exact ⟨s.cursor, s.draws, retire_of_ne hop, le_rfl, fun _ => ⟨rfl, rfl⟩⟩

@[simp] theorem retire_out (s : State) : (retire s).out = s.out := by
  obtain ⟨c, d, h, -, -⟩ := retire_eq s
  rw [h, State.withDraws_out, State.withCursor_out]

theorem retire_streamDec {s : State} (h : s.op = .streamDec) : retire s = settleCursor s := by
  rw [retire, h]

theorem settleCursor_decoded {s : State} {l : Lid} {r : Record} (h : s.out = .decoded l r) :
    settleCursor s = s.withCursor (s.cursor + l.len) := by
  rw [settleCursor, h]

theorem settleCursor_failed {s : State} {e : ErrorKind} (h : s.out = .failed e) :
    settleCursor s =
      (s.withCursor (s.cursor + Config.freeCursorAdvance s.draws)).withDraws (s.draws + 1) := by
  rw [settleCursor, h]

/-- The output a step leaves. -/
theorem out_of_step {s t : State} (h : step s = .next t) : t.out = (fetch s).output s.op := by
  rw [step_eq] at h
  rw [← Host.Outcome.next.inj h, retire_out, State.withOut_out]

/-- The state a step of the stream reader leaves is its output's, with the cursor settled. -/
theorem eq_settleCursor_of_step {s t : State} (hop : s.op = .streamDec) (h : step s = .next t) :
    t = settleCursor (s.withOut t.out) := by
  rw [out_of_step h, ← retire_streamDec (by exact hop)]
  rw [step_eq] at h
  exact (Host.Outcome.next.inj h).symm

/-! ### The frame -/

/-- Settles O24: the closed form of a step is a next state. -/
theorem everyStepAnswers : Obligations.EveryStepAnswers := fun s => ⟨_, step_eq s⟩

/-- Settles O26: a step writes the outputs, then the cursor and the counter if it was the stream reader's. -/
theorem stepFrame : Obligations.StepFrame := by
  intro s t hstep
  rw [step_eq] at hstep
  obtain ⟨c, d, hretire, hc, hother⟩ := retire_eq (s.withOut ((fetch s).output s.op))
  rw [← Host.Outcome.next.inj hstep, hretire]
  exact ⟨rfl, rfl, rfl, rfl, rfl, rfl, rfl, rfl, hc, hother⟩

/-- Bytes past the length of an encoding are filler (R142). -/
theorem read_portBuffer_encode {i : Instr} {l : Lid} (h : i.lid = some l) {a : Nat} (ha : l.len ≤ a) :
    (portBuffer (encode i)).read a = 0#8 := by
  rw [portBuffer_read, encode_of_lid h]
  exact List.getD_eq_default _ _ (by rwa [length_serialize])

/-- The output of a layout is an encoding only under `ENC`, and then its instruction's own. -/
theorem layoutOutput_eq_encoded {i : Instr} {l k : Lid} {op : Op} {buf : Memory} (hl : i.lid = some l)
    (h : layoutOutput l i.operands op = .encoded k buf) : op = .enc ∧ k = l ∧ buf = portBuffer (encode i) := by
  cases op with
  | enc => rw [layoutOutput, ← encode_of_lid hl] at h; cases h; exact ⟨rfl, rfl, rfl⟩
  | idle | taglen => cases h
  | dec | streamDec => simp only [layoutOutput] at h; split at h <;> cases h

theorem out_of_runReserved {s t : State} (h : runReserved s = .next t) :
    t.out = .noValue ∨ t.out = .failed .invalidTag := by
  unfold runReserved at h
  split at h
  · exact .inl (congrArg State.out (Host.Outcome.next.inj h)).symm
  · cases h
  all_goals exact .inr (congrArg State.out (Host.Outcome.next.inj h)).symm

/-- Settles O25: `exec` changes the outputs only; what it encodes is its instruction's bytes in a port buffer. -/
theorem execFrame : Obligations.ExecFrame := by
  intro i s t hexec
  obtain ⟨o, rfl⟩ := exec_next hexec
  refine ⟨rfl, rfl, rfl, rfl, rfl, rfl, rfl, rfl, fun _ => rfl, fun _ => rfl, fun l buf hout => ?_⟩
  rw [State.withOut_out] at hout
  cases hl : i.lid with
  | some k =>
    rw [exec_layout hl, hout] at hexec
    obtain ⟨-, rfl, rfl⟩ := layoutOutput_eq_encoded hl (congrArg State.out (Host.Outcome.next.inj hexec))
    exact ⟨rfl, fun a => read_portBuffer_encode hl⟩
  | none =>
    rw [exec_reserved hl] at hexec
    rcases out_of_runReserved hexec with ho | ho <;> cases ho.symm.trans hout

/-! ### What a step reads -/

theorem Memory.readBytes_congr {m m' : Memory} {a a' n : Nat}
    (h : ∀ k, k < n → m.read (a + k) = m'.read (a' + k)) : m.readBytes a n = m'.readBytes a' n :=
  List.map_congr_left fun k hk => h k (List.mem_range.mp hk)

/-- What `op` comes to depends on the inputs of `op` alone. -/
theorem fetch_congr {s s' : State} (h : sameInputs s s') : fetch s = fetch s' := by
  obtain ⟨hop, henc, htag, hdec, hstream⟩ := h
  cases hs : s.op with
  | idle => rw [fetch, fetch, ← hop, hs]
  | enc =>
    obtain ⟨hvreq, hslots⟩ := henc hs
    rw [fetch, fetch, ← hop, hs, fetchEnc, fetchEnc, hvreq, hslots]
  | taglen => rw [fetch, fetch, ← hop, hs, htag hs]
  | dec =>
    obtain ⟨hlen, hread⟩ := hdec hs
    have hbytes : s.decBytes.readBytes 0 (min s.decLen 10) = s'.decBytes.readBytes 0 (min s.decLen 10) :=
      Memory.readBytes_congr fun k hk => by simpa using hread k hk
    rw [fetch, fetch, ← hop, hs, fetchDec, fetchDec, hbytes, hlen]
  | streamDec =>
    obtain ⟨hlen, hread⟩ := hstream hs
    have hbytes (d n : Nat) : streamRead s.stream s.streamLen (s.cursor + d) n =
        streamRead s'.stream s'.streamLen (s'.cursor + d) n := by
      rw [streamRead, streamRead, ← Nat.sub_sub, ← Nat.sub_sub, hlen]
      refine Memory.readBytes_congr fun k hk => ?_
      rw [Nat.add_assoc, Nat.add_assoc]
      exact hread (d + k) (by omega)
    have hfirst := hbytes 0 1
    have hrest := hbytes 1
    simp only [Nat.add_zero] at hfirst
    rw [fetch, fetch, ← hop, hs, fetchStream, fetchStream, hfirst]
    simp only [hrest]

theorem fetch_withOut (s : State) (o : Output) : fetch (s.withOut o) = fetch s := rfl

theorem step_withOut (s : State) (o : Output) : step (s.withOut o) = step s := by
  rw [step_eq, step_eq, fetch_withOut, State.withOut_op, State.withOut_withOut]

/-- Settles O27: the same inputs come to the same instruction or error, which alone gives the output; and nothing
before the output is written reads an old one. -/
theorem outputsDependOnInputsOnly : Obligations.OutputsDependOnInputsOnly := by
  refine ⟨fun s s' t t' hsame hstep hstep' => ?_, step_withOut⟩
  rw [out_of_step hstep, out_of_step hstep', fetch_congr hsame, hsame.1]

/-- Settles O28: the state after differs in its output only, which the next step does not read. -/
theorem repeatedOperationGivesSameResult : Obligations.RepeatedOperationGivesSameResult := by
  intro s t hop hstep
  have ht := hstep
  rw [step_eq_withOut hop] at ht
  rw [← hstep, ← Host.Outcome.next.inj ht, step_withOut]

/-! ### Reset, errors, ports -/

theorem step_idle {s : State} (h : s.op = .idle) : step s = .next (s.withOut .noValue) := by
  rw [step_eq_withOut (by simp [h]), fetch, h, Fetch.output]

/-- Settles O54: reset presents no operation and has no output, and such a step leaves none. -/
theorem resetPresentsNothing : Obligations.ResetPresentsNothing :=
  ⟨rfl, rfl, rfl, step_idle rfl, fun _ => step_idle⟩

/-- Settles O55: both byte spaces are empty and there is no output. -/
theorem invariantHoldsAtReset : Obligations.InvariantHoldsAtReset := ⟨rfl, rfl, rfl, rfl, trivial⟩

/-- Settles O50: a failed call settles its cursor by the free value. -/
theorem failedStreamDecodeLeavesCursorFree : Obligations.FailedStreamDecodeLeavesCursorFree := by
  intro s t e hop hstep hout
  have ht := eq_settleCursor_of_step hop hstep
  rw [hout, settleCursor_failed rfl] at ht
  rw [ht]
  exact ⟨rfl, Nat.le_add_right _ _, rfl⟩

/-- The four payload ports are values exactly for an `OutOfRange`. -/
theorem payloadPorts_isSome_iff (o : Output) :
    (o.errField.isSome ↔ o.err = some 2) ∧ (o.errValue.isSome ↔ o.err = some 2) ∧
    (o.errMin.isSome ↔ o.err = some 2) ∧ (o.errMax.isSome ↔ o.err = some 2) := by
  cases o with
  | failed e =>
    cases e <;>
      simp [Output.errField, Output.errValue, Output.errMin, Output.errMax, Output.err, ErrorKind.code]
  | _ => simp [Output.errField, Output.errValue, Output.errMin, Output.errMax, Output.err]

/-- Settles O52: the ports are read off the output; the payload ports follow the code. -/
theorem errorPorts : Obligations.ErrorPorts := by
  refine ⟨⟨rfl, fun _ _ _ _ => rfl, rfl, rfl, rfl⟩, fun s e => ?_, payloadPorts_isSome_iff,
    fun _ _ _ _ => ⟨rfl, rfl, rfl, rfl⟩⟩
  have hports := payloadPorts_isSome_iff (.failed e)
  simp only [Output.err, Option.some.injEq] at hports
  exact ⟨rfl, rfl, rfl, rfl, fun _ => rfl, rfl, hports⟩

end Sys2Proof.Machine
end

section
/-! From the presented bytes to the instruction: `DEC` against its rule (spec/44_decoder.md R180, R181), the stream
reader's two reads as one (spec/20_memory.md R41), `TAGLEN` (spec/43_tag_dispatcher.md R170), reserved tags
(spec/30_encoding.md R66). -/

namespace Sys2Proof

theorem Lid.len_le (l : Lid) : l.len ≤ 10 := by cases l <;> decide

/-- Bytes after an instruction's own are left. -/
theorem decode_append_of_decode {v : List Byte} {i : Instr} (h : decode v = .ok (i, [])) (rest : List Byte) :
    decode (v ++ rest) = .ok (i, rest) := by
  obtain ⟨v', hv, -, hdecode⟩ := decode_eq_ok_split h
  rw [List.append_nil] at hv
  rw [hv, hdecode]

theorem length_of_decode {v : List Byte} {i : Instr} (h : decode v = .ok (i, [])) : v.length = i.length := by
  obtain ⟨v', hv, hlen, -⟩ := decode_eq_ok_split h
  rw [hv, List.append_nil, hlen]

/-- The first byte of a value says how long it is (R68). -/
theorem tagLength_of_decode {b : Byte} {bs rest : List Byte} {i : Instr} (h : decode (b :: bs) = .ok (i, rest)) :
    Machine.tagLength b = i.length := by
  obtain ⟨b', hb, hbs, rfl⟩ | ⟨l, b', bs', hb, -, hbs, rfl⟩ := decode_eq_ok h
  · obtain ⟨rfl, -⟩ := List.cons.inj hbs
    rw [Machine.tagLength, hb, Instr.length_of_lid_none (lid_reservedInstr b)]
  · obtain ⟨rfl, -⟩ := List.cons.inj hbs
    rw [Machine.tagLength, hb, Instr.length_of_lid (Instr.lid_ofWire _ _)]

@[simp] theorem Instr.lid_ofTag (b : Byte) : (Instr.ofTag b).lid = tagDispatch b := by
  unfold Instr.ofTag
  cases hb : tagDispatch b with
  | some l => exact Instr.lid_ofWire _ _
  | none => exact lid_reservedInstr b

namespace Machine

/-! ### Runs of bytes -/

theorem Memory.readBytes_succ (m : Memory) (a n : Nat) :
    m.readBytes a (n + 1) = m.read a :: m.readBytes (a + 1) n := by
  simp [Memory.readBytes, List.range_succ_eq_map, Nat.add_assoc, Nat.add_comm 1]

theorem Memory.take_readBytes (m : Memory) (a k n : Nat) :
    (m.readBytes a n).take k = m.readBytes a (min k n) := by
  rw [Memory.readBytes, ← List.map_take, List.take_range, Memory.readBytes]

theorem Memory.drop_readBytes (m : Memory) (a k n : Nat) :
    (m.readBytes a n).drop k = m.readBytes (a + k) (n - k) := by
  induction k generalizing a n with
  | zero => rfl
  | succ k ih =>
    cases n with
    | zero => simp [Memory.readBytes]
    | succ n =>
      rw [Memory.readBytes_succ, List.drop_succ_cons, ih, Nat.add_sub_add_right, Nat.add_assoc, Nat.add_comm 1]

/-- Reading the head of a string that was written to an empty space. -/
theorem readBytes_writeBytes (bs : List Byte) {n : Nat} (h : n ≤ bs.length) :
    (Memory.writeBytes [] 0 bs).readBytes 0 n = bs.take n := by
  refine List.ext_getElem (by rw [Memory.length_readBytes, List.length_take, Nat.min_eq_left h]) ?_
  intro k hk hk'
  have hkn : k < n := by rwa [Memory.length_readBytes] at hk
  have hkbs : k < bs.length := Nat.lt_of_lt_of_le hkn h
  simp [Memory.readBytes, Memory.read_writeBytes k (m := []) rfl, hkbs]

/-! ### DEC -/

/-- The outputs that show a result of `DEC`. -/
def decResult : Except ErrorKind (Lid × Record) → Output
  | .ok (l, r) => .decoded l r
  | .error e => .failed e

/-- The outputs of a layout under `DEC` show its inverse codec. -/
theorem layoutOutput_dec (l : Lid) (ws : Wire) :
    layoutOutput l ws .dec = decResult ((inverseCodec codecConfig l ws).map fun r => (l, r)) := by
  rw [layoutOutput]
  cases inverseCodec codecConfig l ws <;> rfl

theorem decOp_of_reserved {c : Config} {len : Nat} {buf : Memory} (hlen : len ≠ 0)
    (htag : tagDispatch (buf.read 0) = none) : decOp c len buf = .error .invalidTag := by
  simp only [decOp, taglenOp, htag, hlen, if_false]

/-- `DEC` of bytes that begin with a layout's tag: at any other length an error, at its length the inverse codec. -/
theorem decOp_of_layout {c : Config} {len : Nat} {buf : Memory} {l : Lid} (hlen : len ≠ 0)
    (htag : tagDispatch (buf.read 0) = some l) :
    decOp c len buf = if len ≠ l.len then .error .invalidLength
      else (inverseCodec c l (unpack l (deserialize (buf.readBytes 0 l.len)))).map fun r => (l, r) := by
  simp only [decOp, taglenOp, htag, hlen, if_false]
  split
  · rfl
  · cases inverseCodec c l (unpack l (deserialize (buf.readBytes 0 l.len))) <;> rfl

/-- When `DEC` gives a record: the tag's length, and an inverse codec that gives that record. -/
theorem decOp_eq_ok_iff {c : Config} {len : Nat} {buf : Memory} {l : Lid} {r : Record} :
    decOp c len buf = .ok (l, r) ↔ len = l.len ∧ tagDispatch (buf.read 0) = some l ∧
      inverseCodec c l (unpack l (deserialize (buf.readBytes 0 l.len))) = .ok r := by
  by_cases hlen : len = 0
  · have hpos := l.len_pos
    rw [decOp, if_pos hlen]
    exact ⟨nofun, fun ⟨h, _⟩ => by omega⟩
  cases htag : tagDispatch (buf.read 0) with
  | none => rw [decOp_of_reserved hlen htag]; exact ⟨nofun, fun ⟨_, h, _⟩ => by cases h⟩
  | some k =>
    rw [decOp_of_layout hlen htag]
    by_cases hk : len = k.len
    · rw [if_neg (not_not.mpr hk)]
      cases hinv : inverseCodec c k (unpack k (deserialize (buf.readBytes 0 k.len))) with
      | error e =>
        refine ⟨nofun, fun ⟨_, h, h'⟩ => ?_⟩
        cases h; cases hinv.symm.trans h'
      | ok r' =>
        constructor
        · intro h; cases h; exact ⟨hk, rfl, hinv⟩
        · rintro ⟨-, h, h'⟩
          cases h; cases hinv.symm.trans h'; rfl
    · rw [if_pos hk]
      exact ⟨nofun, fun ⟨h, h', _⟩ => by cases h'; exact absurd h hk⟩

/-- The front half of `DEC` and the meaning of the instruction it comes to, together, are the rule's pseudocode. -/
theorem output_fetchDec (s : State) :
    (fetchDec s).output .dec = decResult (decOp codecConfig s.decLen s.decBytes) := by
  by_cases hlen : s.decLen = 0
  · rw [fetchDec, hlen]; rfl
  obtain ⟨n, hn⟩ : ∃ n, min s.decLen 10 = n + 1 := ⟨min s.decLen 10 - 1, by omega⟩
  have hbytes : s.decBytes.readBytes 0 (min s.decLen 10) = s.decBytes.read 0 :: s.decBytes.readBytes 1 n := by
    rw [hn, Memory.readBytes_succ]
  cases htag : tagDispatch (s.decBytes.read 0) with
  | none =>
    have hlid := lid_reservedInstr (s.decBytes.read 0)
    rw [decOp_of_reserved hlen htag, fetchDec, hbytes, decode_reserved htag]
    simp only [hlid]
    exact instrOutput_of_lid_none hlid .dec
  | some l =>
    have hle := l.len_le
    rw [decOp_of_layout hlen htag, fetchDec, hbytes, decode_layout htag, ← hbytes, Memory.length_readBytes]
    by_cases hshort : min s.decLen 10 < l.len
    · rw [if_pos hshort, if_pos (by omega)]; rfl
    · rw [if_neg hshort]
      simp only [Instr.lid_ofWire]
      by_cases hl : s.decLen = l.len
      · rw [if_pos hl, if_neg (not_not.mpr hl), Memory.take_readBytes, Nat.min_eq_left (by omega), Fetch.output,
          instrOutput_of_lid (Instr.lid_ofWire _ _), operands_ofWire_unpack, layoutOutput_dec]
      · rw [if_neg hl, if_pos hl]; rfl

theorem step_dec {s : State} (hop : s.op = .dec) :
    step s = .next (s.withOut (decResult (decOp codecConfig s.decLen s.decBytes))) := by
  rw [step_eq_withOut (by simp [hop]), ← output_fetchDec, fetch, hop]

/-- Settles O41: the closed form of a step under `DEC`. -/
theorem decStepRefinesPseudocode : Obligations.DecStepRefinesPseudocode := fun _ hop => step_dec hop

/-- Settles O42: the branches of the rule in order; after the checks only the inverse codec can fail. -/
theorem decChecksInOrder : Obligations.DecChecksInOrder := by
  intro s hop
  rw [step_dec hop]
  refine ⟨fun h => by rw [h]; rfl, fun hlen htag => by rw [decOp_of_reserved (by omega) htag]; rfl, ?_⟩
  intro l hlen htag
  rw [decOp_of_layout (by omega) htag]
  refine ⟨fun h => by rw [if_pos h]; rfl, fun h => ?_⟩
  rw [if_neg (not_not.mpr h)]
  cases hinv : inverseCodec codecConfig l (unpack l (deserialize (s.decBytes.readBytes 0 l.len))) with
  | ok r => exact .inl ⟨r, rfl⟩
  | error e =>
    obtain ⟨f, w, -, -, rfl⟩ := inverseCodec_eq_error hinv
    exact .inr ⟨_, _, _, _, rfl⟩

/-- What `DEC` makes of a byte string is what the pseudocode makes of its buffer. -/
theorem decodesTo_iff {bs : List Byte} {o : Output} :
    decodesTo bs o ↔ decResult (decOp codecConfig bs.length (portBuffer (bs.take 10))) = o := by
  constructor
  · intro h
    have hstep := h { State.reset with op := .dec, decLen := bs.length, decBytes := portBuffer (bs.take 10) }
      rfl rfl rfl
    rw [step_dec rfl] at hstep
    exact congrArg State.out (Host.Outcome.next.inj hstep)
  · intro h s hop hlen hbuf
    rw [step_dec hop, hlen, hbuf, h]

/-- Settles O43: each vector is run through the pseudocode of `DEC`. -/
theorem decErrorVectors : Obligations.DecErrorVectors := by
  simp only [Obligations.DecErrorVectors, decodesTo_iff]
  decide +kernel

/-- Bytes that `DEC` decodes to a record are an instruction of the layout, and the record is the instruction's own. -/
theorem decode_of_decodesTo {v : List Byte} {l : Lid} {r : Record} (h : decodesTo v (.decoded l r)) :
    ∃ i, decode v = .ok (i, []) ∧ i.lid = some l ∧ layoutOutput l i.operands .dec = .decoded l r := by
  have hok : decOp codecConfig v.length (portBuffer (v.take 10)) = .ok (l, r) := by
    have hres := decodesTo_iff.mp h
    cases hdec : decOp codecConfig v.length (portBuffer (v.take 10)) with
    | ok p => rw [hdec] at hres; cases hres; rfl
    | error e => rw [hdec] at hres; cases hres
  obtain ⟨hlen, htag, hinv⟩ := decOp_eq_ok_iff.mp hok
  have hpos := l.len_pos
  rw [List.take_of_length_le (hlen ▸ l.len_le)] at htag hinv
  rw [← hlen, portBuffer_readBytes] at hinv
  obtain ⟨b, bs, rfl⟩ : ∃ b bs, v = b :: bs := List.exists_cons_of_length_pos (by omega)
  have hb : tagDispatch b = some l := by rwa [portBuffer_read] at htag
  refine ⟨_, by rw [← List.append_nil (b :: bs), decode_append hb hlen], Instr.lid_ofWire _ _, ?_⟩
  rw [operands_ofWire_unpack, layoutOutput_dec, hinv]
  rfl

/-! ### The stream reader -/

/-- What is left to read from the cursor on. -/
def State.remaining (s : State) : List Byte :=
  streamRead s.stream s.streamLen s.cursor (s.streamLen - s.cursor)

theorem State.remaining_eq (s : State) :
    s.remaining = s.stream.readBytes s.cursor (s.streamLen - s.cursor) := by
  rw [State.remaining, streamRead, Nat.min_self]

theorem State.length_remaining (s : State) : s.remaining.length = s.streamLen - s.cursor := by
  rw [State.remaining_eq, Memory.length_readBytes]

theorem streamRead_cursor (s : State) (n : Nat) :
    streamRead s.stream s.streamLen s.cursor n = s.remaining.take n := by
  rw [State.remaining_eq, Memory.take_readBytes, streamRead]

theorem streamRead_cursor_add (s : State) (k n : Nat) :
    streamRead s.stream s.streamLen (s.cursor + k) n = (s.remaining.drop k).take n := by
  rw [State.remaining_eq, Memory.drop_readBytes, Memory.take_readBytes, streamRead, Nat.sub_sub]

theorem State.remaining_withCursor (s : State) (k : Nat) :
    (s.withCursor (s.cursor + k)).remaining = s.remaining.drop k := by
  rw [State.remaining_eq s, Memory.drop_readBytes, Nat.sub_sub, State.remaining_eq]
  rfl

/-- Cutting a string at the length of its tag does not change what its head decodes to. -/
theorem decode_take {b : Byte} {bs : List Byte} {l : Lid} (hb : tagDispatch b = some l) :
    decode (b :: bs.take (l.len - 1)) = (decode (b :: bs)).map fun p => (p.1, []) := by
  have hpos := l.len_pos
  have hcons : b :: bs.take (l.len - 1) = (b :: bs).take l.len := by
    rw [show l.len = l.len - 1 + 1 by omega]; rfl
  rw [decode_layout hb, decode_layout hb, hcons, List.take_take, Nat.min_self, List.length_take]
  by_cases hshort : (b :: bs).length < l.len
  · rw [if_pos hshort, if_pos (by omega)]; rfl
  · rw [if_neg hshort, if_neg (by omega), List.drop_of_length_le (by rw [List.length_take]; omega)]; rfl

/-- The two reads of `decode_from_stream` come to one decode of what is left. -/
theorem fetchStream_eq (s : State) :
    fetchStream s = match decode s.remaining with
      | .ok (i, _) => .instr i
      | .error _ => .error .shortRead := by
  rw [fetchStream, streamRead_cursor]
  cases hrem : s.remaining with
  | nil => rfl
  | cons b bs =>
    simp only [List.take_succ_cons]
    cases hb : tagDispatch b with
    | none => rw [decode_reserved hb]
    | some l =>
      simp only
      rw [streamRead_cursor_add, hrem, List.drop_succ_cons, List.drop_zero, decode_take hb]
      cases decode (b :: bs) <;> rfl

theorem fetch_stream_instr {s : State} {i : Instr} {rest : List Byte} (hop : s.op = .streamDec)
    (h : decode s.remaining = .ok (i, rest)) : fetch s = .instr i := by
  rw [fetch, hop]
  simp only [fetchStream_eq, h]

theorem fetch_stream_error {s : State} {e : DecodeError} (hop : s.op = .streamDec)
    (h : decode s.remaining = .error e) : fetch s = .error .shortRead := by
  rw [fetch, hop]
  simp only [fetchStream_eq, h]

/-! ### A step runs the decoded instruction -/

theorem step_eq_exec {s : State} {i : Instr} (hop : s.op ≠ .streamDec) (h : fetch s = .instr i) :
    step s = exec i s := by
  rw [step_eq_withOut hop, exec_of_fetch h, h, Fetch.output]

theorem fetchDec_instr {s : State} {i : Instr} {rest : List Byte}
    (h : decode (s.decBytes.readBytes 0 (min s.decLen 10)) = .ok (i, rest))
    (hlen : i.lid = none ∨ s.decLen = i.length) : fetchDec s = .instr i := by
  rw [fetchDec, h]
  cases hl : i.lid with
  | none => simp only [hl]
  | some l =>
    have hl' : s.decLen = l.len := by
      rw [← Instr.length_of_lid hl]
      exact hlen.resolve_left (by simp [hl])
    simp only [hl, hl', if_true]

theorem step_dec_eq_exec {s : State} {i : Instr} {rest : List Byte} (hop : s.op = .dec)
    (h : decode (s.decBytes.readBytes 0 (min s.decLen 10)) = .ok (i, rest))
    (hlen : i.lid = none ∨ s.decLen = i.length) : step s = exec i s :=
  step_eq_exec (by simp [hop]) (by rw [fetch, hop]; exact fetchDec_instr h hlen)

theorem step_taglen_eq_exec {s : State} (hop : s.op = .taglen) : step s = exec (.ofTag s.tagByte) s :=
  step_eq_exec (by simp [hop]) (by rw [fetch, hop])

/-- The instruction whose bytes stand at the cursor is the one that the stream reader runs. -/
theorem fetch_stream_of_decode {s : State} {i : Instr} {n : Nat} (hop : s.op = .streamDec)
    (h : decode (streamRead s.stream s.streamLen s.cursor n) = .ok (i, [])) : fetch s = .instr i := by
  rw [streamRead_cursor] at h
  have hrem := decode_append_of_decode h (s.remaining.drop n)
  rw [List.take_append_drop] at hrem
  exact fetch_stream_instr hop hrem

/-- Settles O22: each operation comes to its instruction, and a step is the meaning of what the operation comes to. -/
theorem stepRunsDecodedInstruction : Obligations.StepRunsDecodedInstruction := by
  refine ⟨fun s i rest => step_dec_eq_exec, fun s l wire hop hselect hcodec => ?_,
    fun s => step_taglen_eq_exec, fun s t i hop hdecode hexec => ?_⟩
  · exact step_eq_exec (by simp [hop]) (by rw [fetch, hop]; simp only [fetchEnc, hselect, hcodec])
  · have hfetch := fetch_stream_of_decode hop hdecode
    obtain ⟨o, rfl⟩ := exec_next hexec
    rw [exec_of_fetch hfetch] at hexec
    rw [step_eq, hfetch, Fetch.output, Host.Outcome.next.inj hexec, retire_streamDec (by exact hop)]

theorem length_tableBytes (nbits w : Nat) : (tableBytes nbits w).length = 10 := by
  simp [tableBytes]

/-- Ten bytes hold a value of any layout. -/
theorem exists_decode_tableBytes (nbits w : Nat) : ∃ i rest, decode (tableBytes nbits w) = .ok (i, rest) := by
  cases h : decode (tableBytes nbits w) with
  | ok p => exact ⟨p.1, p.2, rfl⟩
  | error e =>
    have hlen := length_tableBytes nbits w
    obtain hnil | ⟨b, bs, l, -, -, hshort⟩ := decode_eq_error_iff.mp ⟨e, h⟩
    · rw [hnil] at hlen; cases hlen
    · have := l.len_le; omega

/-- Settles O23: the buffer holds the word's bytes and the declared length is that of their first byte, so the front
half reads the same instruction from them. -/
theorem presentedWordRunsNext : Obligations.PresentedWordRunsNext := by
  intro s nbits w
  obtain ⟨i, rest, hdecode⟩ := exists_decode_tableBytes nbits w
  refine ⟨i, by rw [decodeTableWord, hdecode], ?_⟩
  obtain ⟨v, hv, hvlen, hvdecode⟩ := decode_eq_ok_split hdecode
  have hten := length_tableBytes nbits w
  have hle : v.length ≤ 10 := by rw [← hten, hv, List.length_append]; omega
  have hdecLen : (s.withFetchWord nbits w).decLen = i.length := by
    obtain ⟨b, bs, hbs⟩ : ∃ b bs, tableBytes nbits w = b :: bs := List.exists_cons_of_length_pos (by omega)
    rw [hbs] at hdecode
    show tagLength ((Memory.writeBytes [] 0 (tableBytes nbits w)).read 0) = _
    rw [Memory.read_writeBytes 0 rfl, if_pos (by omega), hbs]
    exact tagLength_of_decode hdecode
  refine step_dec_eq_exec (rest := []) rfl ?_ (.inr hdecLen)
  rw [hdecLen, ← hvlen, Nat.min_eq_left hle]
  show decode ((Memory.writeBytes [] 0 (tableBytes nbits w)).readBytes 0 v.length) = _
  rw [readBytes_writeBytes _ (by omega), hv, List.take_left, ← List.append_nil v, hvdecode]

/-! ### TAGLEN and reserved tags -/

theorem step_taglen_some {s : State} {l : Lid} (hop : s.op = .taglen) (h : tagDispatch s.tagByte = some l) :
    step s = .next (s.withOut (.tagged l)) := by
  rw [step_taglen_eq_exec hop, exec_layout (l := l) (by rw [Instr.lid_ofTag, h]), hop, layoutOutput]

theorem step_taglen_none {s : State} (hop : s.op = .taglen) (h : tagDispatch s.tagByte = none) :
    step s = .next (s.raise .invalidTag) := by
  rw [step_taglen_eq_exec hop, exec_reserved_raise (by rw [Instr.lid_ofTag, h]) (.inl hop)]

/-- Settles O19: the instruction of a byte has the layout that the dispatcher gives, and the bytes without one are an
interval. -/
theorem taglenOnEveryByte : Obligations.TaglenOnEveryByte := by
  refine ⟨fun s hop => ⟨fun h => step_taglen_none hop ((tagDispatch_eq_none_iff _).mpr h), fun h => ?_⟩,
    fun s i l hop hl => by rw [exec_layout hl, hop, layoutOutput],
    fun s i hop hl => exec_reserved_raise hl (.inl hop), by decide⟩
  rw [← tagDispatch_eq_none_iff, ← ne_eq, Option.ne_none_iff_exists'] at h
  obtain ⟨l, hl⟩ := h
  exact ⟨l, hl, step_taglen_some hop hl⟩

/-- Settles O20: a reserved byte has no layout, under `TAGLEN`, under `DEC` and as an instruction. -/
theorem reservedRowsRaiseInvalidTag : Obligations.ReservedRowsRaiseInvalidTag := by
  refine ⟨fun s hop => ⟨fun _ => exec_reserved_raise rfl hop, fun _ => exec_reserved_raise rfl hop,
      fun _ => exec_reserved_raise rfl hop, fun _ => exec_reserved_raise rfl hop⟩, fun b bs hb => ?_,
    fun s hop hb => step_taglen_none hop ((tagDispatch_eq_none_iff _).mpr hb), fun s hop hlen hb => ?_⟩
  · rw [← tagDispatch_eq_none_iff] at hb
    exact ⟨reservedInstr b, lid_reservedInstr b, encode_reservedInstr hb, decode_reserved hb bs⟩
  · obtain ⟨-, hreserved, -⟩ := decChecksInOrder s hop
    exact hreserved hlen ((tagDispatch_eq_none_iff _).mpr hb)

/-- Settles O21: a reserved row has no layout to encode, and what `ENC` comes to has one. -/
theorem reservedRowsAreNeverEncoded : Obligations.ReservedRowsAreNeverEncoded := by
  refine ⟨fun s i hop hl => by rw [exec_reserved hl, runReserved, hop], fun s i hop hfetch => ?_⟩
  rw [fetch, hop] at hfetch
  exact lid_of_fetchEnc hfetch

end Machine

end Sys2Proof
end

section
/-! The field codec and its inverse, field by field (spec/41_field_codec.md R112 to R116, R120 to R125): slots of any
usable parameters survive the way to the wire and back; what a record holds, by the wire values it was made of. -/

namespace Sys2Proof

/-- The wire values of a layout, given field by field. -/
def Lid.wireOf (l : Lid) (g : Field → Nat) : Wire := l.fields.map fun f => (f, g f)

theorem Lid.mem_wireOf {l : Lid} {g : Field → Nat} {p : Field × Nat} :
    p ∈ l.wireOf g ↔ p.1 ∈ l.fields ∧ p.2 = g p.1 := by
  obtain ⟨f, w⟩ := p
  simp only [Lid.wireOf, List.mem_map, Prod.mk.injEq]
  constructor
  · rintro ⟨f', hf', rfl, rfl⟩; exact ⟨hf', rfl⟩
  · rintro ⟨hf, rfl⟩; exact ⟨f, hf, rfl, rfl⟩

theorem Lid.get_wireOf {l : Lid} {f : Field} (g : Field → Nat) (hf : f ∈ l.fields) : (l.wireOf g).get f = g f :=
  Wire.get_map g f l.fields hf

theorem Lid.find?_wireOf (l : Lid) (g : Field → Nat) (f : Field) :
    (l.wireOf g).find? f = if f ∈ l.fields then some (g f) else none :=
  Wire.find?_map g f l.fields

theorem Lid.wireOf_congr {l : Lid} {g g' : Field → Nat} (h : ∀ f ∈ l.fields, g f = g' f) :
    l.wireOf g = l.wireOf g' :=
  List.map_congr_left fun f hf => by rw [h f hf]

theorem Instr.operands_eq_wireOf {i : Instr} {l : Lid} (h : i.lid = some l) :
    i.operands = l.wireOf (Wire.get i.operands) :=
  (Instr.operands_eq h).symm

theorem Instr.operands_lt {i : Instr} {l : Lid} (h : i.lid = some l) {p : Field × Nat} (hp : p ∈ i.operands) :
    p.2 < 2 ^ p.1.width := by
  rw [Instr.operands_eq_wireOf h, Lid.mem_wireOf] at hp
  rw [hp.2]
  exact i.get_operands_lt p.1

theorem unpack_eq_wireOf (l : Lid) (W : Nat) : unpack l W = l.wireOf (unpack l W).get :=
  (unpack_eq_map_get l W).symm

theorem operands_ofWire_wireOf {l : Lid} {g : Field → Nat} (h : ∀ f ∈ l.fields, g f < 2 ^ f.width) :
    (Instr.ofWire l (l.wireOf g)).operands = l.wireOf g := by
  rw [Instr.operands_ofWire fun f hf => by rw [Lid.get_wireOf g hf]; exact h f hf]
  exact Lid.wireOf_congr fun f hf => Lid.get_wireOf g hf

/-- A sub-second field of a layout is the one of its precision. -/
theorem Lid.mem_subField_of_isSub {l : Lid} {f : Field} (hf : f ∈ l.fields) (hsub : f.isSub = true) :
    f ∈ l.row.sub.field := by
  revert hf hsub
  cases l <;> cases f <;> decide

theorem Lid.mem_fields_of_mem_subField {l : Lid} {f : Field} (hf : f ∈ l.row.sub.field) : f ∈ l.fields :=
  List.mem_append_right _ hf

theorem Precision.isSub_of_mem_field {p : Precision} {f : Field} (hf : f ∈ p.field) : f.isSub = true := by
  cases p <;> simp only [Precision.field, List.mem_singleton, List.not_mem_nil] at hf <;> subst hf <;> rfl

/-! ### Usable parameters -/

/-- A usable choice gives a sentinel to every field but the three sub-second ones. -/
theorem Config.Valid.sentinel_eq_none_iff {c : Config} (h : c.Valid) (f : Field) :
    (c.desc f).sentinel = none ↔ f.isSub = true := by
  cases hsub : f.isSub with
  | true => simp [h.noSentinel f hsub]
  | false => obtain ⟨n, hn, -⟩ := h.sentinel f hsub; simp [hn]

/-- In a usable choice no value in range is the sentinel. -/
theorem Config.Valid.lt_sentinel {c : Config} (h : c.Valid) {f : Field} {n w : Nat}
    (hn : (c.desc f).sentinel = some n) (hw : w ≤ (c.desc f).max) : w < n := by
  have hsub : f.isSub = false := by
    by_contra hsub
    rw [h.noSentinel f (by simpa using hsub)] at hn
    cases hn
  obtain ⟨m, hm, hlt, -⟩ := h.sentinel f hsub
  cases hm.symm.trans hn
  omega

namespace Machine

/-! ### One field -/

/-- The result value of a wire value (R122, R123). -/
def fromWire (c : Config) (f : Field) (w : Nat) : Int :=
  match f with
  | .tz => tzOffsetOf c w
  | f => w + userBase f

theorem fromWire_of_ne_tz {c : Config} {f : Field} (h : f ≠ .tz) (w : Nat) : fromWire c f w = w + userBase f := by
  cases f with
  | tz => exact absurd rfl h
  | _ => rfl

theorem toWire_of_ne_tz {c : Config} {f : Field} (h : f ≠ .tz) (v : Int) : toWire c f v = (v - userBase f).toNat := by
  cases f with
  | tz => exact absurd rfl h
  | _ => rfl

/-- A slot that passes its check is in range on the wire, and comes back from there (R112, R115, R122, R123). -/
theorem wire_of_slotOk {c : Config} {f : Field} {v : Int} (hstep : 0 < c.tzStep) (h : slotOk c f v = true) :
    (c.desc f).min ≤ toWire c f v ∧ toWire c f v ≤ (c.desc f).max ∧ fromWire c f (toWire c f v) = v := by
  by_cases hf : f = .tz
  · subst hf
    obtain ⟨hlo, hhi, hmod⟩ := slotOk_tz_iff.mp h
    have hpos : (0 : Int) < c.tzStep := by exact_mod_cast hstep
    obtain ⟨q, rfl⟩ := Int.dvd_of_emod_eq_zero hmod
    rw [tzMinOffset, Int.mul_comm] at hlo
    rw [tzMaxOffset, Int.mul_comm _ (c.tzStep : Int)] at hhi
    have hlo' := Int.le_of_mul_le_mul_left hlo hpos
    have hhi' := Int.le_of_mul_le_mul_left hhi hpos
    have hwire : toWire c .tz (c.tzStep * q) = (q + c.tzBias).toNat := by
      rw [toWire, Int.mul_ediv_cancel_left _ hpos.ne']
    rw [hwire, fromWire, tzOffsetOf, Int.toNat_of_nonneg (by omega), Int.add_sub_cancel, Int.mul_comm]
    refine ⟨?_, ?_, rfl⟩ <;> simp only [Config.desc] <;> omega
  · obtain ⟨hlo, hhi⟩ := (slotOk_iff hf).mp h
    rw [fromWire_of_ne_tz hf, toWire_of_ne_tz hf]
    omega

/-- A wire value in range comes back as a slot that passes its check, and the way back to the wire gives it again. -/
theorem slotOk_fromWire {c : Config} {f : Field} {w : Nat} (hlo : (c.desc f).min ≤ w) (hhi : w ≤ (c.desc f).max) :
    slotOk c f (fromWire c f w) = true := by
  by_cases hf : f = .tz
  · subst hf
    have hstep : (0 : Int) ≤ c.tzStep := Int.natCast_nonneg _
    simp only [Config.desc] at hlo hhi
    rw [slotOk_tz_iff, fromWire, tzOffsetOf, tzMinOffset, tzMaxOffset]
    exact ⟨Int.mul_le_mul_of_nonneg_right (by omega) hstep, Int.mul_le_mul_of_nonneg_right (by omega) hstep,
      Int.mul_emod_left _ _⟩
  · rw [slotOk_iff hf, fromWire_of_ne_tz hf]
    omega

theorem toWire_fromWire {c : Config} (hstep : 0 < c.tzStep) (f : Field) (w : Nat) :
    toWire c f (fromWire c f w) = w := by
  by_cases hf : f = .tz
  · subst hf
    have hpos : (c.tzStep : Int) ≠ 0 := by exact_mod_cast hstep.ne'
    rw [fromWire, tzOffsetOf, toWire, Int.mul_ediv_cancel _ hpos, Int.sub_add_cancel, Int.toNat_natCast]
  · rw [fromWire_of_ne_tz hf, toWire_of_ne_tz hf, Int.add_sub_cancel, Int.toNat_natCast]

/-! ### Settled fields and the record -/

theorem settled_wireOf (c : Config) (l : Lid) (g : Field → Nat) (f : Field) :
    settled c (l.wireOf g) f =
      if f ∈ l.fields ∧ (c.desc f).sentinel ≠ some (g f) then some (g f) else none := by
  rw [settled, Lid.find?_wireOf]
  by_cases hf : f ∈ l.fields
  · by_cases hs : (c.desc f).sentinel = some (g f) <;> simp [hf, hs]
  · simp [hf]

/-- The result slot of a field that is not a derived one. -/
theorem Record.get_recordOf (c : Config) {p : Precision} (ws : Wire) {f : Field}
    (hf : f.isSub = false ∨ f ∈ p.field) :
    (recordOf c p ws).get f = (settled c ws f).map (fromWire c f) := by
  have hbase (o : Option Nat) : o.map Int.ofNat = o.map (fun w : Nat => (w : Int) + 0) := by
    simp only [Int.add_zero]; rfl
  have hone (o : Option Nat) : (o.map (· + 1)).map Int.ofNat = o.map (fun w : Nat => (w : Int) + 1) := by
    cases o <;> rfl
  cases f with
  | month | day => exact hone _
  | tz => rfl
  | year | hour | minute | second => exact hbase _
  | millisecond | microsecond | nanosecond =>
    cases p <;>
      simp only [Field.isSub, Precision.field, List.mem_singleton, List.not_mem_nil, reduceCtorEq, or_self] at hf
    exact hbase _

theorem Record.get_recordOf_of_mem (c : Config) {l : Lid} (ws : Wire) {f : Field} (hf : f ∈ l.fields) :
    (recordOf c l.row.sub ws).get f = (settled c ws f).map (fromWire c f) := by
  refine Record.get_recordOf c ws ?_
  cases hsub : f.isSub with
  | false => exact .inl rfl
  | true => exact .inr (Lid.mem_subField_of_isSub hf hsub)

/-- A field the layout does not have is absent, unless it is a derived one (R197). -/
theorem Record.get_recordOf_of_not_mem (c : Config) {l : Lid} (g : Field → Nat) {f : Field} (hf : f ∉ l.fields)
    (hsub : f.isSub = false) : (recordOf c l.row.sub (l.wireOf g)).get f = none := by
  rw [Record.get_recordOf c _ (.inl hsub), settled_wireOf, if_neg fun h => hf h.1]
  rfl

theorem Record.tzHour_recordOf (c : Config) (p : Precision) (ws : Wire) :
    (recordOf c p ws).tzHour = (recordOf c p ws).tzOffset.map fun o => o.natAbs / 60 := by
  simp only [recordOf, Option.map_map]; rfl

theorem Record.tzMinute_recordOf (c : Config) (p : Precision) (ws : Wire) :
    (recordOf c p ws).tzMinute = (recordOf c p ws).tzOffset.map fun o => o.natAbs % 60 := by
  simp only [recordOf, Option.map_map]; rfl

/-- With the stored field settled, the sub-second slots are those of R125. -/
theorem Record.subSecondsFollow_recordOf {c : Config} {p : Precision} {ws : Wire}
    (h : ∀ f ∈ p.field, ∃ w, settled c ws f = some w) : (recordOf c p ws).subSecondsFollow p := by
  cases p with
  | none => exact ⟨rfl, rfl, rfl⟩
  | ms =>
    obtain ⟨w, hw⟩ := h .millisecond (by simp [Precision.field])
    exact ⟨w, by simp [recordOf, subSeconds, hw]⟩
  | us =>
    obtain ⟨w, hw⟩ := h .microsecond (by simp [Precision.field])
    exact ⟨w, by simp [recordOf, subSeconds, hw]⟩
  | ns =>
    obtain ⟨w, hw⟩ := h .nanosecond (by simp [Precision.field])
    exact ⟨w, by simp [recordOf, subSeconds, hw]⟩

/-- The stored sub-second field of a layout is always present: it has no sentinel (R126). -/
theorem settled_subField {c : Config} (hsub : ∀ f, f.isSub = true → (c.desc f).sentinel = none) {l : Lid}
    (g : Field → Nat) {f : Field} (hf : f ∈ l.row.sub.field) : settled c (l.wireOf g) f = some (g f) := by
  have hnone := hsub f (Precision.isSub_of_mem_field hf)
  rw [settled_wireOf, if_pos ⟨Lid.mem_fields_of_mem_subField hf, by simp [hnone]⟩]

/-! ### The parameters of the spec -/

theorem codecConfig_valid : codecConfig.Valid where
  max_lt f := by cases f <;> decide
  sentinel f hf := by
    cases f with
    | millisecond | microsecond | nanosecond => cases hf
    | year | month | day | hour | minute | second | tz => exact ⟨_, rfl, by decide⟩
  noSentinel f hf := by
    cases f with
    | millisecond | microsecond | nanosecond => rfl
    | year | month | day | hour | minute | second | tz => cases hf
  step_pos := by decide

/-- Settles O51: the descriptor table is a usable choice, and the relations hold of every usable choice. -/
theorem sentinelsAreDisjoint : Obligations.SentinelsAreDisjoint :=
  ⟨fun _ _ _ => codecConfig_valid.lt_sentinel, codecConfig_valid.sentinel_eq_none_iff, codecConfig_valid⟩

end Machine

end Sys2Proof
end

section
/-! `DEC` of the instructions (spec/44_decoder.md R184 to R199): the order of examination, the record's slots, and the
relations every record satisfies (spec/10_state.md R24; spec/41_field_codec.md R124, R125). -/

namespace Sys2Proof.Machine

/-! ### The order of examination -/

/-- The first and the last illegal wire value of a field (R111); year and day have none in their widths. -/
def illegalWires : Field → Option (Nat × Nat)
  | .year | .day => none
  | .month => some (12, 14)
  | .hour => some (24, 30)
  | .minute => some (60, 62)
  | .second => some (61, 62)
  | .millisecond => some (1000, 1023)
  | .microsecond => some (1000000, 1048575)
  | .nanosecond => some (1000000000, 1073741823)
  | .tz => some (126, 126)

/-- The entries of `examine` for a list of wire values: those of the fields that can be illegal. -/
def examined (ws : Wire) : List (Field × Nat × Nat × Nat) :=
  ws.filterMap fun p => (illegalWires p.1).map fun b => (p.1, p.2, b)

theorem legal_of_illegalWires_none {f : Field} {w : Nat} (hw : w < 2 ^ f.width) (h : illegalWires f = none) :
    (codecConfig.desc f).legal w = true := by
  rw [FieldDesc.legal_iff]
  cases f with
  | year | day => simp [Field.width] at hw ⊢; omega
  | _ => cases h

/-- The illegal wire values of a field are the run from just above its range to its sentinel or its width. -/
theorem legal_iff_of_illegalWires {f : Field} {w lo hi : Nat} (hw : w < 2 ^ f.width)
    (h : illegalWires f = some (lo, hi)) : (codecConfig.desc f).legal w = true ↔ ¬(lo ≤ w ∧ w ≤ hi) := by
  rw [FieldDesc.legal_iff]
  cases f with
  | year | day => cases h
  | _ => cases h; simp [Field.width] at hw ⊢; omega

theorem bounds_of_illegalWires {f : Field} {lo hi : Nat} (h : illegalWires f = some (lo, hi)) :
    (codecConfig.desc f).min = 0 ∧ (codecConfig.desc f).max + 1 = lo := by
  cases f with
  | year | day => cases h
  | _ => cases h; decide

/-- Examining the fields that can be illegal finds the first error of the re-check. -/
theorem examine_examined {ws : Wire} (h : ∀ p ∈ ws, p.2 < 2 ^ p.1.width) (o : Output) :
    examine (examined ws) o = (firstWireError codecConfig ws).elim o .failed := by
  induction ws with
  | nil => rfl
  | cons p ws ih =>
    obtain ⟨f, w⟩ := p
    rw [List.forall_mem_cons] at h
    obtain ⟨hw, hws⟩ := h
    rw [examined] at ih ⊢
    cases hf : illegalWires f with
    | none =>
      rw [List.filterMap_cons_none (by rw [hf]; rfl), ih hws]
      simp only [firstWireError, wireError, legal_of_illegalWires_none hw hf, if_true]
    | some b =>
      obtain ⟨lo, hi⟩ := b
      obtain ⟨hmin, hmax⟩ := bounds_of_illegalWires hf
      rw [List.filterMap_cons_some (by rw [hf]; rfl), examine, ih hws]
      have hlegal := legal_iff_of_illegalWires hw hf
      rw [firstWireError, wireError]
      by_cases hill : lo ≤ w ∧ w ≤ hi
      · have hbound : ((lo : Int) - 1) = (codecConfig.desc f).max := by omega
        rw [if_pos hill, if_neg fun h => hlegal.mp h hill, hbound, hmin]
        rfl
      · rw [if_neg hill, if_pos (hlegal.mpr hill)]

/-- A present slot of R120, the sentinel of each field written out; a sub-second field has none. -/
def presentSlot : Field → Nat → Option Nat
  | .year => presentUnless 4095
  | .month => presentUnless 15
  | .day | .hour => presentUnless 31
  | .minute | .second => presentUnless 63
  | .tz => presentUnless 127
  | .millisecond | .microsecond | .nanosecond => some

theorem settled_codecConfig (ws : Wire) (f : Field) :
    settled codecConfig ws f = (ws.find? f).bind (presentSlot f) := by
  have hsentinel (n w : Nat) : (if some n == some w then none else some w) = presentUnless n w := by
    simp [presentUnless, eq_comm (a := n)]
  rw [settled]
  congr 1
  funext w
  cases f with
  | millisecond | microsecond | nanosecond => rfl
  | _ => exact hsentinel _ w

/-- The record of the spec's parameters, every sentinel written out. -/
def plainRecord (p : Precision) (ws : Wire) : Record where
  year := (ws.find? .year).bind (presentSlot .year)
  month := ((ws.find? .month).bind (presentSlot .month)).map (· + 1)
  day := ((ws.find? .day).bind (presentSlot .day)).map (· + 1)
  hour := (ws.find? .hour).bind (presentSlot .hour)
  minute := (ws.find? .minute).bind (presentSlot .minute)
  second := (ws.find? .second).bind (presentSlot .second)
  millisecond := (subSeconds p codecConfig ws).1
  microsecond := (subSeconds p codecConfig ws).2.1
  nanosecond := (subSeconds p codecConfig ws).2.2
  tzOffset := ((ws.find? .tz).bind (presentSlot .tz)).map fun (w : Nat) => ((w : Int) - 64) * 15
  tzHour := ((ws.find? .tz).bind (presentSlot .tz)).map fun (w : Nat) => (((w : Int) - 64) * 15).natAbs / 60
  tzMinute := ((ws.find? .tz).bind (presentSlot .tz)).map fun (w : Nat) => (((w : Int) - 64) * 15).natAbs % 60

theorem recordOf_codecConfig (p : Precision) (ws : Wire) : recordOf codecConfig p ws = plainRecord p ws := by
  simp only [recordOf, settled_codecConfig]
  rfl

/-- The output of an instruction under `DEC`, as the rules of the single layouts write it. -/
theorem exec_dec_examine {i : Instr} {l : Lid} {entries : List (Field × Nat × Nat × Nat)} {r : Record} {s : State}
    (hop : s.op = .dec ∨ s.op = .streamDec) (hl : i.lid = some l) (hentries : examined i.operands.reverse = entries)
    (hr : plainRecord l.row.sub i.operands = r) :
    exec i s = .next (s.withOut (examine entries (.decoded l r))) := by
  have hlt : ∀ p ∈ i.operands.reverse, p.2 < 2 ^ p.1.width :=
    fun p hp => Instr.operands_lt hl (List.mem_reverse.mp hp)
  rw [exec_dec hl hop, ← hentries, examine_examined hlt, layoutOutput, inverseCodec, ← hr, ← recordOf_codecConfig]
  cases firstWireError codecConfig i.operands.reverse <;> rfl

/-- Settles O15: the entries and the record of each layout are those of its operands; the examples run `DEC`. -/
theorem decodeDAndT : Obligations.DecodeDAndT := by
  simp only [Obligations.DecodeDAndT, decodesTo_iff]
  exact ⟨fun _ _ _ _ hop => exec_dec_examine hop rfl rfl rfl, by decide +kernel, by decide +kernel,
    fun _ _ _ _ hop => exec_dec_examine hop rfl rfl rfl, by decide +kernel, by decide +kernel, by decide +kernel⟩

/-- Settles O16: the entries and the record of each layout are those of its operands; the examples run `DEC`. -/
theorem decodeDTAndDTZ : Obligations.DecodeDTAndDTZ := by
  simp only [Obligations.DecodeDTAndDTZ, decodesTo_iff]
  exact ⟨fun _ _ _ _ _ _ _ hop => exec_dec_examine hop rfl rfl rfl, by decide +kernel,
    fun _ _ _ _ _ _ _ _ hop => exec_dec_examine hop rfl rfl rfl, by decide +kernel⟩

/-- Settles O17: the entries and the record of each layout are those of its operands, the stored sub-second field
examined first; the examples run `DEC`. -/
theorem decodeDTS : Obligations.DecodeDTS := by
  simp only [Obligations.DecodeDTS, decodesTo_iff]
  exact ⟨fun _ _ _ _ _ _ _ hop => exec_dec_examine hop rfl rfl rfl, by decide +kernel,
    fun _ _ _ _ _ _ _ _ hop => exec_dec_examine hop rfl rfl rfl, by decide +kernel,
    fun _ _ _ _ _ _ _ _ hop => exec_dec_examine hop rfl rfl rfl, by decide +kernel,
    fun _ _ _ _ _ _ _ _ hop => exec_dec_examine hop rfl rfl rfl, by decide +kernel⟩

/-- Settles O18: the entries and the record of each layout are those of its operands, tz examined after the sub-second
field; the examples run `DEC`. -/
theorem decodeDTSZ : Obligations.DecodeDTSZ := by
  simp only [Obligations.DecodeDTSZ, decodesTo_iff]
  exact ⟨fun _ _ _ _ _ _ _ _ hop => exec_dec_examine hop rfl rfl rfl, by decide +kernel,
    fun _ _ _ _ _ _ _ _ _ hop => exec_dec_examine hop rfl rfl rfl, by decide +kernel,
    fun _ _ _ _ _ _ _ _ _ hop => exec_dec_examine hop rfl rfl rfl, by decide +kernel,
    fun _ _ _ _ _ _ _ _ _ hop => exec_dec_examine hop rfl rfl rfl, by decide +kernel⟩

/-! ### Legal values -/

theorem wireBounds_eq (f : Field) :
    wireBounds f = (((codecConfig.desc f).min : Int), ((codecConfig.desc f).max : Int)) := by
  cases f <;> rfl

/-- A well-formed instruction gives its record under `DEC` (R199). -/
theorem layoutOutput_dec_of_wellFormed {i : Instr} {l : Lid} (hl : i.lid = some l)
    (h : i.wellFormed codecConfig = true) :
    layoutOutput l i.operands .dec = .decoded l (recordOf codecConfig l.row.sub i.operands) := by
  rw [layoutOutput_dec, inverseCodec_eq_ok_iff.mpr ⟨(Instr.wellFormed_iff hl).mp h, rfl⟩]
  rfl

/-- The output of an instruction under `DEC` is a record of legal wire values or the error of an illegal one. -/
theorem layoutOutput_dec_cases (l : Lid) (ws : Wire) :
    (∃ r, inverseCodec codecConfig l ws = .ok r ∧ layoutOutput l ws .dec = .decoded l r) ∨
    ∃ f w, (f, w) ∈ ws ∧ (codecConfig.desc f).legal w = false ∧ layoutOutput l ws .dec =
      .failed (.outOfRange f w (codecConfig.desc f).min (codecConfig.desc f).max) := by
  rw [layoutOutput_dec]
  cases hinv : inverseCodec codecConfig l ws with
  | ok r => exact .inl ⟨r, rfl, rfl⟩
  | error e =>
    obtain ⟨f, w, hmem, hillegal, rfl⟩ := inverseCodec_eq_error hinv
    exact .inr ⟨f, w, hmem, hillegal, rfl⟩

/-- Settles O44: the inverse codec gives a record exactly when every wire value is legal, else the error of one
that is not. -/
theorem decSucceedsExactlyOnLegalValues : Obligations.DecSucceedsExactlyOnLegalValues := by
  intro s i l hop hl
  rw [exec_dec hl hop]
  refine ⟨fun hwf => ⟨_, by rw [layoutOutput_dec_of_wellFormed hl hwf]⟩, fun hwf => ?_⟩
  obtain ⟨r, hinv, -⟩ | ⟨f, w, hmem, hillegal, hout⟩ := layoutOutput_dec_cases l i.operands
  · have hlegal := (Instr.wellFormed_iff hl).mpr (inverseCodec_eq_ok_iff.mp hinv).1
    rw [hwf] at hlegal
    cases hlegal
  · exact ⟨f, w, hmem, hillegal, by rw [hout, wireBounds_eq, State.raise_eq]⟩

/-- Settles O57: the string is as long as its layout, so `DEC` takes it whole and comes to the same instruction. -/
theorem decOfLegalBytesGivesInstructionsRecord : Obligations.DecOfLegalBytesGivesInstructionsRecord := by
  intro v i l hdecode hl hwf
  have hlen := (length_of_decode hdecode).trans (Instr.length_of_lid hl)
  have hout := layoutOutput_dec_of_wellFormed hl hwf
  exact ⟨_, decodesTo_of_decode hlen hdecode hl hout, fun s hop => by rw [exec_dec hl hop, hout]⟩

/-! ### The relations of a record -/

theorem inUserRange_eq_slotOk (f : Field) (v : Int) : inUserRange f v = slotOk codecConfig f v := by
  rw [Bool.eq_iff_iff]
  by_cases hf : f = .tz
  · subst hf
    simp [slotOk_tz_iff, inUserRange]
  · rw [slotOk_iff hf]
    cases f with
    | tz => exact absurd rfl hf
    | _ => simp [inUserRange, userBase]

/-- A settled field of a legal value is in its user range. -/
theorem inUserRange_fromWire {f : Field} {w : Nat} (hlegal : (codecConfig.desc f).legal w = true)
    (hs : (codecConfig.desc f).sentinel ≠ some w) : inUserRange f (fromWire codecConfig f w) = true := by
  obtain ⟨hlo, hhi⟩ := (FieldDesc.legal_iff.mp hlegal).resolve_left hs
  rw [inUserRange_eq_slotOk]
  exact slotOk_fromWire hlo hhi

theorem inUserRange_get_recordOf {l : Lid} {g : Field → Nat}
    (hlegal : ∀ f ∈ l.fields, (codecConfig.desc f).legal (g f) = true) {f : Field} (hf : f ∈ l.fields) {v : Int}
    (h : (recordOf codecConfig l.row.sub (l.wireOf g)).get f = some v) : inUserRange f v = true := by
  rw [Record.get_recordOf_of_mem codecConfig _ hf, settled_wireOf] at h
  split at h
  · rename_i hset
    cases h
    exact inUserRange_fromWire (hlegal f hf) hset.2
  · cases h

/-- Sub-second slots that follow from the stored one are all three present or absent, and truncations of each other. -/
theorem Record.truncated_of_subSecondsFollow {r : Record} {p : Precision} (h : r.subSecondsFollow p) :
    r.millisecond.isSome = decide (p ≠ .none) ∧ r.millisecond = r.microsecond.map (· / 1000) ∧
      r.microsecond = r.nanosecond.map (· / 1000) := by
  cases p with
  | none => obtain ⟨hms, hus, hns⟩ := h; simp [hms, hus, hns]
  | ms => obtain ⟨w, hms, hus, hns⟩ := h; simp [hms, hus, hns]; omega
  | us => obtain ⟨w, hus, hms, hns⟩ := h; simp [hms, hus, hns]
  | ns => obtain ⟨w, hns, hms, hus⟩ := h; simp [hms, hus, hns]; omega

/-- If the stored sub-second value is in its range, the nanoseconds are in theirs. -/
theorem Record.nanosecond_le_of_subSecondsFollow {r : Record} {p : Precision} (h : r.subSecondsFollow p)
    (hstored : ∀ f ∈ p.field, ∀ v, r.get f = some v → inUserRange f v = true) {n : Nat} (hn : r.nanosecond = some n) :
    n ≤ 999999999 := by
  have hrange : ∀ f ∈ p.field, ∀ w : Nat, r.get f = some (w : Int) → inUserRange f w = true :=
    fun f hf w => hstored f hf w
  cases p with
  | none => obtain ⟨-, -, hns⟩ := h; rw [hns] at hn; cases hn
  | ms =>
    obtain ⟨w, hms, -, hns⟩ := h
    have hw := hrange .millisecond (by decide) w (by simp [Record.get, hms])
    simp [inUserRange] at hw
    rw [hns] at hn; cases hn; omega
  | us =>
    obtain ⟨w, hus, -, hns⟩ := h
    have hw := hrange .microsecond (by decide) w (by simp [Record.get, hus])
    simp [inUserRange] at hw
    rw [hns] at hn; cases hn; omega
  | ns =>
    have hw := hrange .nanosecond (by decide) n (by simp [Record.get, hn])
    simp [inUserRange] at hw
    omega

/-- Truncations of nanoseconds in range are in range. -/
theorem Record.inUserRange_of_truncated {r : Record} (hms : r.millisecond = r.microsecond.map (· / 1000))
    (hus : r.microsecond = r.nanosecond.map (· / 1000)) (hle : ∀ n, r.nanosecond = some n → n ≤ 999999999) {f : Field}
    (hf : f.isSub = true) {v : Int} (hv : r.get f = some v) : inUserRange f v = true := by
  rw [hus] at hms
  cases hns : r.nanosecond with
  | none =>
    rw [hns] at hms hus
    cases f with
    | millisecond | microsecond | nanosecond => simp [Record.get, hms, hus, hns] at hv
    | _ => cases hf
  | some n =>
    have hn := hle n hns
    rw [hns] at hms hus
    cases f with
    | millisecond | microsecond | nanosecond =>
      simp [Record.get, hms, hus, hns] at hv
      simp [inUserRange]
      omega
    | _ => cases hf

/-- The record of legal wire values satisfies the relations of the result slots (R24). -/
theorem Record.ok_recordOf {l : Lid} {g : Field → Nat}
    (hlegal : ∀ f ∈ l.fields, (codecConfig.desc f).legal (g f) = true) :
    (recordOf codecConfig l.row.sub (l.wireOf g)).Ok l := by
  have hfollow : (recordOf codecConfig l.row.sub (l.wireOf g)).subSecondsFollow l.row.sub :=
    Record.subSecondsFollow_recordOf fun f hf => ⟨_, settled_subField codecConfig_valid.noSentinel g hf⟩
  have hcarried : ∀ f, ((recordOf codecConfig l.row.sub (l.wireOf g)).get f).isSome → f.isSub = false →
      f ∈ l.fields := by
    intro f hsome hsub
    by_contra hf
    rw [Record.get_recordOf_of_not_mem codecConfig g hf hsub] at hsome
    cases hsome
  obtain ⟨hms, hus, hns⟩ := Record.truncated_of_subSecondsFollow hfollow
  refine ⟨fun f v hv => ?_, hcarried, hms, hus, hns, Record.tzHour_recordOf _ _ _, Record.tzMinute_recordOf _ _ _⟩
  cases hsub : f.isSub with
  | true =>
    have hstored f (hf : f ∈ l.row.sub.field) v hv :=
      inUserRange_get_recordOf hlegal (v := v) (Lid.mem_fields_of_mem_subField hf) hv
    exact Record.inUserRange_of_truncated hus hns (fun n => Record.nanosecond_le_of_subSecondsFollow hfollow hstored)
      hsub hv
  | false => exact inUserRange_get_recordOf hlegal (hcarried f (by rw [hv]; rfl) hsub) hv

theorem layoutOutput_eq_decoded {l k : Lid} {ws : Wire} {op : Op} {r : Record}
    (h : layoutOutput k ws op = .decoded l r) : k = l ∧ inverseCodec codecConfig l ws = .ok r := by
  cases op with
  | idle | enc | taglen => cases h
  | dec | streamDec =>
    simp only [layoutOutput] at h
    cases hinv : inverseCodec codecConfig k ws with
    | error e => rw [hinv] at h; cases h
    | ok r' => rw [hinv] at h; cases h; exact ⟨rfl, hinv⟩

/-- A record on the outputs is that of an instruction of its layout. -/
theorem Fetch.output_eq_decoded {f : Fetch} {op : Op} {l : Lid} {r : Record} (h : f.output op = .decoded l r) :
    ∃ i, f = .instr i ∧ i.lid = some l ∧ inverseCodec codecConfig l i.operands = .ok r := by
  cases f with
  | nothing | error e => cases h
  | instr i =>
    rw [Fetch.output] at h
    cases hl : i.lid with
    | none => rw [instrOutput_of_lid_none hl] at h; cases h
    | some k =>
      rw [instrOutput_of_lid hl] at h
      obtain ⟨rfl, hinv⟩ := layoutOutput_eq_decoded h
      exact ⟨i, rfl, hl, hinv⟩

/-- A record the inverse codec gives is consistent. -/
theorem Record.ok_of_inverseCodec {l : Lid} {g : Field → Nat} {r : Record}
    (h : inverseCodec codecConfig l (l.wireOf g) = .ok r) : r.Ok l := by
  obtain ⟨hlegal, rfl⟩ := inverseCodec_eq_ok_iff.mp h
  exact Record.ok_recordOf fun f hf => hlegal (f, g f) (Lid.mem_wireOf.mpr ⟨hf, rfl⟩)

theorem Record.ok_of_output {f : Fetch} {op : Op} {l : Lid} {r : Record} (h : f.output op = .decoded l r) :
    r.Ok l := by
  obtain ⟨i, -, hl, hinv⟩ := Fetch.output_eq_decoded h
  rw [Instr.operands_eq_wireOf hl] at hinv
  exact Record.ok_of_inverseCodec hinv

/-- Settles O45: a record on the outputs is that of legal wire values. -/
theorem decodedRecordsAreConsistent : Obligations.DecodedRecordsAreConsistent := by
  intro s t l r hstep hout
  rw [out_of_step hstep] at hout
  exact Record.ok_of_output hout

end Sys2Proof.Machine
end

section
/-! The stream reader (spec/20_memory.md R41, R42; spec/60_exceptions.md R225): one call on the bytes of a value,
calls on concatenated values, and when a call runs short. -/

namespace Sys2Proof.Machine

/-- A call whose instruction gives a record advances the cursor past its bytes (R42). -/
theorem step_stream_decoded {s : State} {i : Instr} {l : Lid} {r : Record} (hop : s.op = .streamDec)
    (hfetch : fetch s = .instr i) (hl : i.lid = some l) (hout : layoutOutput l i.operands .dec = .decoded l r) :
    step s = .next ((s.withOut (.decoded l r)).withCursor (s.cursor + l.len)) := by
  have hres : (fetch s).output s.op = .decoded l r := by
    rw [hfetch, hop, Fetch.output, instrOutput_of_lid hl, ← hout]
    rfl
  rw [step_eq, hres, retire_streamDec (by exact hop), settleCursor_decoded (l := l) (r := r) rfl,
    State.withOut_cursor]

/-- Settles O47: a well-formed instruction gives its record, and the cursor settles past it. -/
theorem streamDecodeAdvancesPastValue : Obligations.StreamDecodeAdvancesPastValue := by
  intro s i l hop hl hwf hdecode
  have hout := layoutOutput_dec_of_wellFormed hl hwf
  exact ⟨_, by rw [exec_dec hl (.inr hop), hout],
    step_stream_decoded hop (fetch_stream_of_decode hop hdecode) hl hout⟩

/-- A call on a stream that goes on with a value of `DEC` gives its record and leaves the bytes after it. -/
theorem step_stream_of_decodesTo {s : State} {v rest : List Byte} {l : Lid} {r : Record} (hop : s.op = .streamDec)
    (hv : decodesTo v (.decoded l r)) (hrem : s.remaining = v ++ rest) :
    ∃ t, step s = .next t ∧ t.out = .decoded l r ∧ t.op = .streamDec ∧ t.cursor = s.cursor + v.length ∧
      t.draws = s.draws ∧ t.remaining = rest := by
  obtain ⟨i, hdecode, hl, hout⟩ := decode_of_decodesTo hv
  have hlen : v.length = l.len := (length_of_decode hdecode).trans (Instr.length_of_lid hl)
  have hfetch := fetch_stream_instr hop (by rw [hrem]; exact decode_append_of_decode hdecode rest)
  refine ⟨_, step_stream_decoded hop hfetch hl hout, rfl, hop, by rw [hlen]; rfl, rfl, ?_⟩
  have hdrop := State.remaining_withCursor (s.withOut (.decoded l r)) l.len
  have hsame : (s.withOut (.decoded l r)).remaining = s.remaining := rfl
  rw [State.withOut_cursor, hsame, hrem, ← hlen, List.drop_left, hlen] at hdrop
  exact hdrop

/-- As many calls as there are values walk over them (R42). -/
theorem stepsTo_concatenated {vs : List (List Byte × Lid × Record)} {s : State} {trailing : List Byte}
    (hop : s.op = .streamDec) (hvs : ∀ v ∈ vs, decodesTo v.1 (.decoded v.2.1 v.2.2))
    (hrem : s.remaining = (vs.map (·.1)).flatten ++ trailing) :
    ∃ t, stepsTo (vs.map fun v => .decoded v.2.1 v.2.2) s t ∧
      t.cursor = s.cursor + (vs.map (·.1)).flatten.length ∧ t.draws = s.draws ∧ t.remaining = trailing := by
  induction vs generalizing s with
  | nil => exact ⟨s, rfl, rfl, rfl, hrem⟩
  | cons v vs ih =>
    rw [List.forall_mem_cons] at hvs
    obtain ⟨hv, hvs⟩ := hvs
    rw [List.map_cons, List.flatten_cons, List.append_assoc] at hrem
    obtain ⟨u, hstep, hout, hop', hcursor, hdraws, hrest⟩ := step_stream_of_decodesTo hop hv hrem
    obtain ⟨t, hsteps, hcursor', hdraws', hrest'⟩ := ih hop' hvs hrest
    refine ⟨t, ⟨u, hstep, hout, hsteps⟩, ?_, hdraws'.trans hdraws, hrest'⟩
    rw [hcursor', hcursor, List.map_cons, List.flatten_cons, List.length_append, Nat.add_assoc]

/-- Settles O48: one call per value, by induction on the values; a call that succeeds settles its cursor past the
layout. -/
theorem streamWalksConcatenatedValues : Obligations.StreamWalksConcatenatedValues := by
  refine ⟨fun vs s trailing hop hvs hrem => stepsTo_concatenated hop hvs hrem, fun s t l r hop hstep hout => ?_⟩
  have ht := eq_settleCursor_of_step hop hstep
  rw [hout, settleCursor_decoded (l := l) (r := r) rfl] at ht
  rw [ht]
  rfl

/-- An instruction fails by `InvalidTag`, or by the `OutOfRange` of one of its wire values. -/
theorem instrOutput_eq_failed {i : Instr} {op : Op} {e : ErrorKind} (h : instrOutput i op = .failed e) :
    e = .invalidTag ∨ ∃ f w, (f, w) ∈ i.operands ∧ (codecConfig.desc f).legal w = false ∧
      e = .outOfRange f w (codecConfig.desc f).min (codecConfig.desc f).max := by
  cases hl : i.lid with
  | none =>
    rw [instrOutput_of_lid_none hl] at h
    cases h
    exact .inl rfl
  | some l =>
    rw [instrOutput_of_lid hl] at h
    cases op with
    | idle | enc | taglen => cases h
    | dec | streamDec =>
      obtain ⟨r, -, hout⟩ | ⟨f, w, hmem, hillegal, hout⟩ := layoutOutput_dec_cases l i.operands
      · cases h.symm.trans hout
      · cases h.symm.trans hout
        exact .inr ⟨f, w, hmem, hillegal, rfl⟩

/-- What is left of the stream holds no value at its head when it is over, or shorter than its tag says. -/
theorem decode_remaining_error_iff (s : State) :
    (∃ e, decode s.remaining = .error e) ↔ s.streamLen ≤ s.cursor ∨
      ∃ l, tagDispatch (s.stream.read s.cursor) = some l ∧ s.streamLen - s.cursor < l.len := by
  rw [decode_eq_error_iff, State.length_remaining]
  by_cases hend : s.streamLen ≤ s.cursor
  · have hnil : s.remaining = [] := List.eq_nil_of_length_eq_zero (by rw [State.length_remaining]; omega)
    simp only [hnil, hend, true_or]
  · obtain ⟨n, hn⟩ : ∃ n, s.streamLen - s.cursor = n + 1 := ⟨s.streamLen - s.cursor - 1, by omega⟩
    have hcons : s.remaining = s.stream.read s.cursor :: s.stream.readBytes (s.cursor + 1) n := by
      rw [State.remaining_eq, hn, Memory.readBytes_succ]
    rw [hcons]
    simp only [hend, reduceCtorEq, false_or]
    constructor
    · rintro ⟨b, bs, l, hb, htag, hshort⟩
      obtain ⟨rfl, -⟩ := List.cons.inj hb
      exact ⟨l, htag, hshort⟩
    · rintro ⟨l, htag, hshort⟩
      exact ⟨_, _, l, rfl, htag, hshort⟩

/-- Settles O49: a call runs short exactly when what is left holds no value at its head; every other failure is its
instruction's. -/
theorem shortReadExactly : Obligations.ShortReadExactly := by
  intro s t hop hstep
  rw [← decode_remaining_error_iff, out_of_step hstep]
  cases hdecode : decode s.remaining with
  | error e =>
    rw [fetch_stream_error hop hdecode]
    exact ⟨⟨fun _ => ⟨e, rfl⟩, fun _ => rfl⟩, nofun, nofun⟩
  | ok p =>
    obtain ⟨i, rest⟩ := p
    rw [fetch_stream_instr hop hdecode, Fetch.output]
    refine ⟨⟨fun h => ?_, nofun⟩, fun h => ?_, fun h => ?_⟩
    all_goals obtain he | ⟨_, _, -, -, he⟩ := instrOutput_eq_failed h <;> cases he

end Sys2Proof.Machine
end

section
/-! The variant selector (spec/40_variant_selector.md R90 to R97): the layout of a family and a precision, and what it
carries. -/

namespace Sys2Proof

/-! ### Fields of a layout -/

theorem Lid.mem_fields_iff (l : Lid) (f : Field) : f ∈ l.fields ↔ match f with
    | .year | .month | .day => l.row.hasDate = true
    | .hour | .minute | .second => l.row.hasTime = true
    | .tz => l.row.hasTz = true
    | .millisecond => l.row.sub = .ms
    | .microsecond => l.row.sub = .us
    | .nanosecond => l.row.sub = .ns := by
  cases l <;> cases f <;> decide

theorem Precision.eq_of_mem_field {p q : Precision} {f : Field} (hp : f ∈ p.field) (hq : f ∈ q.field) : p = q := by
  revert hp hq
  cases p <;> cases q <;> cases f <;> decide

theorem Precision.exists_mem_field {p : Precision} (h : p ≠ .none) : ∃ f, f ∈ p.field := by
  cases p with
  | none => exact absurd rfl h
  | ms | us | ns => exact ⟨_, List.mem_singleton_self _⟩

namespace Machine

/-! ### The layout of a family and a precision -/

theorem family_layoutOf (fam : Family) (p : Precision) : (layoutOf fam p).family = fam := by
  cases fam <;> cases p <;> rfl

theorem sub_layoutOf (fam : Family) (p : Precision) :
    (layoutOf fam p).row.sub = if fam = .dts ∨ fam = .dtsz then p else .none := by
  cases fam <;> cases p <;> rfl

theorem layoutOf_family_sub (l : Lid) : layoutOf l.family l.row.sub = l := by cases l <;> rfl

theorem select_familyRequest (fam : Family) (p : Field → Bool) :
    select (familyRequest fam) p = .ok (layoutOf fam (precisionOf p)) := by
  cases fam <;> rfl

theorem select_zero (p : Field → Bool) : select 0 p = .ok (layoutOf (inferFamily p) (precisionOf p)) := rfl

/-- A layout that is selected is that of some family at the precision of the present slots (R95). -/
theorem select_eq_ok {vreq : BitVec 4} {p : Field → Bool} {l : Lid} (h : select vreq p = .ok l) :
    ∃ fam, l = layoutOf fam (precisionOf p) := by
  unfold select at h
  split at h
  · cases h
  · cases h; exact ⟨_, rfl⟩

theorem exists_select_eq_ok {vreq : BitVec 4} (h : vreq.toNat < 7) (p : Field → Bool) : ∃ l, select vreq p = .ok l :=
  ⟨_, by rw [select, if_neg (Nat.not_le.mpr h)]⟩

/-- Settles O31: the family asked for at the precision of the present slots. -/
theorem explicitFamilyUsedAsAsked : Obligations.ExplicitFamilyUsedAsAsked :=
  fun fam p => ⟨_, select_familyRequest fam p, family_layoutOf fam _, sub_layoutOf fam _⟩

/-! ### The precision of the present slots -/

/-- The field of the precision is present, and no more precise one is (R93). -/
theorem present_of_mem_precisionOf {p : Field → Bool} {f : Field} (h : f ∈ (precisionOf p).field) :
    p f = true ∧ ∀ g, g.isSub = true → fieldIndex f < fieldIndex g → p g = false := by
  unfold precisionOf at h
  split_ifs at h with hns hus hms
  all_goals simp only [Precision.field, List.mem_singleton, List.not_mem_nil] at h
  · subst h
    exact ⟨hns, fun g hg hlt => absurd hlt (by cases g <;> simp [Field.isSub, fieldIndex] at hg ⊢)⟩
  · subst h
    refine ⟨hus, fun g hg hlt => ?_⟩
    cases g <;> simp [Field.isSub, fieldIndex] at hg hlt
    exact Bool.eq_false_of_not_eq_true hns
  · subst h
    refine ⟨hms, fun g hg hlt => ?_⟩
    cases g <;> simp [Field.isSub, fieldIndex] at hg hlt
    · exact Bool.eq_false_of_not_eq_true hus
    · exact Bool.eq_false_of_not_eq_true hns

/-- The sub-second field of a selected layout is that of the precision. -/
theorem mem_precisionOf_of_select {vreq : BitVec 4} {p : Field → Bool} {l : Lid} (h : select vreq p = .ok l)
    {f : Field} (hf : f ∈ l.fields) (hsub : f.isSub = true) : f ∈ (precisionOf p).field := by
  obtain ⟨fam, rfl⟩ := select_eq_ok h
  have hmem := Lid.mem_subField_of_isSub hf hsub
  rw [sub_layoutOf] at hmem
  split at hmem
  · exact hmem
  · cases hmem

/-- Settles O33: the sub-second field of a selected layout is that of the precision; a layout is selected by its own
family and its own sub-second field. -/
theorem selectedSubSecondIsPresent : Obligations.SelectedSubSecondIsPresent := by
  refine ⟨fun vreq p l hselect f hf hsub => present_of_mem_precisionOf (mem_precisionOf_of_select hselect hf hsub),
    fun l => ⟨familyRequest l.family, presentOnly l.row.sub.field, ?_⟩⟩
  cases l <;> rfl

/-- Settles O34: each line is run through the selector. -/
theorem selectorCornerCases : Obligations.SelectorCornerCases :=
  ⟨rfl, rfl, rfl, rfl, rfl, rfl, rfl, rfl, rfl, rfl, rfl, rfl, rfl, rfl, rfl, rfl, fun _ => rfl⟩

/-! ### Inference -/

/-- What a layout must have to carry every supplied field: the groups of R90 that are present, and the most precise
sub-second field (R93). -/
structure Carries (p : Field → Bool) (l : Lid) : Prop where
  date : hasDate p = true → l.row.hasDate = true
  time : hasTime p = true → l.row.hasTime = true
  tz : p .tz = true → l.row.hasTz = true
  sub : precisionOf p = .none ∨ l.row.sub = precisionOf p

theorem fieldIndex_injective : Function.Injective fieldIndex := by
  have hinv (f : Field) : canonicalFields[(fieldIndex f).toNat]? = some f := by cases f <;> rfl
  intro f g h
  have hf := hinv f
  rw [h, hinv g] at hf
  exact (Option.some.inj hf).symm

theorem precisionOf_eq_none_iff (p : Field → Bool) : precisionOf p = .none ↔ hasSub p = false := by
  unfold precisionOf hasSub
  split_ifs <;> simp_all

/-- A supplied field that is no sub-second field is carried as itself. -/
theorem mem_fields_of_carriesAll {p : Field → Bool} {l : Lid} (h : carriesAll p l) {f : Field} (hf : p f = true)
    (hsub : f.isSub = false) : f ∈ l.fields :=
  (h f hf).resolve_right fun ⟨hsub', _⟩ => by rw [hsub] at hsub'; cases hsub'

theorem carries_of_carriesAll {p : Field → Bool} {l : Lid} (h : carriesAll p l) : Carries p l where
  date hd := by
    simp only [hasDate, Bool.or_eq_true] at hd
    obtain (hf | hf) | hf := hd <;> exact (l.mem_fields_iff _).mp (mem_fields_of_carriesAll h hf rfl)
  time ht := by
    simp only [hasTime, Bool.or_eq_true] at ht
    obtain (hf | hf) | hf := ht <;> exact (l.mem_fields_iff _).mp (mem_fields_of_carriesAll h hf rfl)
  tz hf := (l.mem_fields_iff .tz).mp (mem_fields_of_carriesAll h hf rfl)
  sub := by
    rw [or_iff_not_imp_left]
    intro hne
    obtain ⟨f, hf⟩ := Precision.exists_mem_field hne
    obtain ⟨hpf, hmost⟩ := present_of_mem_precisionOf hf
    obtain hmem | ⟨-, g, -, hsub, hpg, hlt⟩ := h f hpf
    · exact Precision.eq_of_mem_field (Lid.mem_subField_of_isSub hmem (Precision.isSub_of_mem_field hf)) hf
    · rw [hmost g hsub hlt] at hpg
      cases hpg

/-- A supplied sub-second field is the most precise one or less precise than it. -/
theorem carries_sub {p : Field → Bool} {l : Lid} (h : Carries p l) {f : Field} (hf : p f = true)
    (hsub : f.isSub = true) :
    f ∈ l.fields ∨ (f.isSub = true ∧ ∃ g ∈ l.fields, g.isSub = true ∧ p g = true ∧ fieldIndex f < fieldIndex g) := by
  have hne : precisionOf p ≠ .none := by
    rw [Ne, precisionOf_eq_none_iff, hasSub]
    cases f <;> simp_all [Field.isSub]
  obtain ⟨g, hg⟩ := Precision.exists_mem_field hne
  obtain ⟨hpg, hmost⟩ := present_of_mem_precisionOf hg
  have hmem : g ∈ l.fields := by
    rw [← h.sub.resolve_left hne] at hg
    exact Lid.mem_fields_of_mem_subField hg
  obtain hlt | heq | hgt := Nat.lt_trichotomy (fieldIndex f).toNat (fieldIndex g).toNat
  · exact .inr ⟨hsub, g, hmem, Precision.isSub_of_mem_field hg, hpg, BitVec.lt_def.mpr hlt⟩
  · exact .inl (fieldIndex_injective (BitVec.eq_of_toNat_eq heq) ▸ hmem)
  · rw [hmost f hsub (BitVec.lt_def.mpr hgt)] at hf
    cases hf

theorem carriesAll_of_carries {p : Field → Bool} {l : Lid} (h : Carries p l) : carriesAll p l := by
  intro f hf
  cases f with
  | millisecond | microsecond | nanosecond => exact carries_sub h hf rfl
  | tz => exact .inl ((l.mem_fields_iff _).mpr (h.tz hf))
  | year | month | day => exact .inl ((l.mem_fields_iff _).mpr (h.date (by simp [hasDate, hf])))
  | hour | minute | second => exact .inl ((l.mem_fields_iff _).mpr (h.time (by simp [hasTime, hf])))

/-- The inferred family has every group that is supplied (R92). -/
theorem inferFamily_carries (p : Field → Bool) :
    (hasDate p = true → inferFamily p ≠ .t) ∧ (hasTime p = true → inferFamily p ≠ .d) ∧
    (p .tz = true → inferFamily p = .dtz ∨ inferFamily p = .dtsz) ∧
    (hasSub p = true → inferFamily p = .dts ∨ inferFamily p = .dtsz) := by
  unfold inferFamily
  split_ifs <;> simp_all

theorem hasDate_layoutOf {fam : Family} (h : fam ≠ .t) (q : Precision) : (layoutOf fam q).row.hasDate = true := by
  cases fam with
  | t => exact absurd rfl h
  | _ => cases q <;> rfl

theorem hasTime_layoutOf {fam : Family} (h : fam ≠ .d) (q : Precision) : (layoutOf fam q).row.hasTime = true := by
  cases fam with
  | d => exact absurd rfl h
  | _ => cases q <;> rfl

theorem hasTz_layoutOf {fam : Family} (h : fam = .dtz ∨ fam = .dtsz) (q : Precision) :
    (layoutOf fam q).row.hasTz = true := by
  obtain rfl | rfl := h <;> cases q <;> rfl

theorem carries_inferred (p : Field → Bool) : Carries p (layoutOf (inferFamily p) (precisionOf p)) := by
  obtain ⟨hdate, htime, htz, hsub⟩ := inferFamily_carries p
  refine ⟨fun h => hasDate_layoutOf (hdate h) _, fun h => hasTime_layoutOf (htime h) _,
    fun h => hasTz_layoutOf (htz h) _, ?_⟩
  cases hs : hasSub p with
  | false => exact .inl ((precisionOf_eq_none_iff p).mpr hs)
  | true => exact .inr (by rw [sub_layoutOf, if_pos (hsub hs)])

/-- The lengths the groups of a layout ask for. -/
theorem len_bounds (l : Lid) :
    3 ≤ l.len ∧ (l.row.hasDate = true → l.row.hasTime = true → 5 ≤ l.len) ∧ (l.row.hasTz = true → 6 ≤ l.len) ∧
    (l.row.sub ≠ .none → (layoutOf .dts l.row.sub).len ≤ l.len) ∧
    (l.row.sub ≠ .none → l.row.hasTz = true → (layoutOf .dtsz l.row.sub).len ≤ l.len) := by
  cases l <;> decide

/-- A layout that carries every supplied field is at least as long as the inferred one. -/
theorem len_inferred_le {p : Field → Bool} {l : Lid} (h : Carries p l) :
    (layoutOf (inferFamily p) (precisionOf p)).len ≤ l.len := by
  obtain ⟨hthree, hfive, hsix, hdts, hdtsz⟩ := len_bounds l
  have hsub (hs : hasSub p = true) : l.row.sub = precisionOf p ∧ l.row.sub ≠ .none := by
    have hne : precisionOf p ≠ .none := by rw [Ne, precisionOf_eq_none_iff, hs]; decide
    have heq := h.sub.resolve_left hne
    exact ⟨heq, heq ▸ hne⟩
  unfold inferFamily
  split_ifs with hst hs ht hdt hd htime
  · rw [Bool.and_eq_true] at hst
    obtain ⟨heq, hne⟩ := hsub hst.1
    exact heq ▸ hdtsz hne (h.tz hst.2)
  · obtain ⟨heq, hne⟩ := hsub hs
    exact heq ▸ hdts hne
  · exact hsix (h.tz ht)
  · rw [Bool.and_eq_true] at hdt
    exact hfive (h.date hdt.1) (h.time hdt.2)
  all_goals exact hthree

/-- Settles O32: the inferred layout has the supplied groups and the most precise sub-second field, and every layout
that has them is at least as long. -/
theorem inferenceIsSmallestAdequate : Obligations.InferenceIsSmallestAdequate :=
  fun p => ⟨_, select_zero p, carriesAll_of_carries (carries_inferred p),
    fun _ h => len_inferred_le (carries_of_carriesAll h)⟩

end Machine

end Sys2Proof
end

section
/-! `ENC` (spec/42_encoder.md R140 to R143, R156; spec/41_field_codec.md R112 to R119): its step as the rule's
pseudocode, its wire values, its errors, and the bytes it puts on the outputs. -/

namespace Sys2Proof.Machine

/-! ### The field codec over every usable choice of parameters -/

/-- No slot fails its check. -/
theorem firstSlotError_canonicalFields_eq_none_iff {c : Config} {s : Slots} :
    firstSlotError c s canonicalFields = none ↔ ∀ f v, s.get f = some v → slotOk c f v = true := by
  have hall (f : Field) : f ∈ canonicalFields := by cases f <;> decide
  rw [firstSlotError_eq_none_iff]
  exact ⟨fun h f => h f (hall f), fun h f _ => h f⟩

theorem fieldCodec_eq_ok_iff {c : Config} {s : Slots} {l : Lid} {ws : Wire} :
    fieldCodec c s l = .ok ws ↔
      (∀ f v, s.get f = some v → slotOk c f v = true) ∧ ws = l.wireOf (fieldWire c s) := by
  rw [← firstSlotError_canonicalFields_eq_none_iff, fieldCodec]
  cases firstSlotError c s canonicalFields with
  | some e => exact ⟨nofun, fun h => by cases h.1⟩
  | none => exact ⟨fun h => ⟨rfl, (Except.ok.inj h).symm⟩, fun h => by rw [h.2]; rfl⟩

theorem fieldWire_some {c : Config} {s : Slots} {f : Field} {v : Int} (h : s.get f = some v) :
    fieldWire c s f = toWire c f v := by
  rw [fieldWire, h]

theorem fieldWire_none {c : Config} {s : Slots} {f : Field} (h : s.get f = none) :
    fieldWire c s f = (c.desc f).sentinel.getD 0 := by
  rw [fieldWire, h]

/-- The wire value of a checked slot fits the width of its field. -/
theorem fieldWire_lt {c : Config} (hc : c.Valid) {s : Slots} (h : ∀ f v, s.get f = some v → slotOk c f v = true)
    (f : Field) : fieldWire c s f < 2 ^ f.width := by
  cases hv : s.get f with
  | some v =>
    obtain ⟨-, hmax, -⟩ := wire_of_slotOk hc.step_pos (h f v hv)
    rw [fieldWire_some hv]
    exact Nat.lt_of_le_of_lt hmax (hc.max_lt f)
  | none =>
    rw [fieldWire_none hv]
    cases hsub : f.isSub with
    | true => rw [hc.noSentinel f hsub]; exact Nat.two_pow_pos _
    | false => obtain ⟨n, hn, -, hlt⟩ := hc.sentinel f hsub; rw [hn]; exact hlt

/-- What `ENC` gives when it succeeds (R140): the encoding of the selected layout with the wire values of the slots. -/
theorem encOp_eq_ok {c : Config} (hc : c.Valid) {vreq : BitVec 4} {slots : Slots} {l : Lid} {bs : List Byte}
    (h : encOp c vreq slots = .ok (l, bs)) :
    select vreq slots.present = .ok l ∧ (∀ f v, slots.get f = some v → slotOk c f v = true) ∧
      ∃ i : Instr, i.lid = some l ∧ i.operands = l.wireOf (fieldWire c slots) ∧ bs = encode i := by
  rw [encOp] at h
  cases hselect : select vreq slots.present with
  | error e => rw [hselect] at h; cases h
  | ok k =>
    cases hcodec : fieldCodec c slots k with
    | error e => simp only [hselect, hcodec] at h; cases h
    | ok wire =>
      simp only [hselect, hcodec] at h
      cases h
      obtain ⟨hok, rfl⟩ := fieldCodec_eq_ok_iff.mp hcodec
      have hops := operands_ofWire_wireOf (l := l) fun f _ => fieldWire_lt hc hok f
      exact ⟨rfl, hok, _, Instr.lid_ofWire l _, hops, by rw [encode_of_lid (Instr.lid_ofWire l _), hops]⟩

/-! ### A step of ENC -/

/-- The outputs that show a result of `ENC`. -/
def encResult : Except ErrorKind (Lid × List Byte) → Output
  | .ok (l, bs) => .encoded l (portBuffer bs)
  | .error e => .failed e

/-- The front half of `ENC` and the meaning of the instruction it comes to, together, are the rule's pseudocode: the
wire values fit their operands, so none loses a bit. -/
theorem output_fetchEnc (s : State) :
    (fetchEnc s).output .enc = encResult (encOp codecConfig s.encVreq s.slots) := by
  rw [fetchEnc, encOp]
  cases select s.encVreq s.slots.present with
  | error e => rfl
  | ok l =>
    cases hcodec : fieldCodec codecConfig s.slots l with
    | error e => simp only [hcodec]; rfl
    | ok wire =>
      obtain ⟨hok, rfl⟩ := fieldCodec_eq_ok_iff.mp hcodec
      simp only [hcodec, Fetch.output, instrOutput_of_lid (Instr.lid_ofWire l _),
        operands_ofWire_wireOf fun f _ => fieldWire_lt codecConfig_valid hok f]
      rfl

theorem step_enc {s : State} (hop : s.op = .enc) :
    step s = .next (s.withOut (encResult (encOp codecConfig s.encVreq s.slots))) := by
  rw [step_eq_withOut (by simp [hop]), ← output_fetchEnc, fetch, hop]

/-- Settles O29: the closed form of a step under `ENC`. -/
theorem encStepRefinesPseudocode : Obligations.EncStepRefinesPseudocode := fun _ hop => step_enc hop

/-- Bytes on the outputs after a step under `ENC` are those of the pseudocode. -/
theorem encOp_of_step {s t : State} {l : Lid} {buf : Memory} (hop : s.op = .enc) (hstep : step s = .next t)
    (hout : t.out = .encoded l buf) :
    ∃ bs, encOp codecConfig s.encVreq s.slots = .ok (l, bs) ∧ buf = portBuffer bs := by
  rw [step_enc hop] at hstep
  rw [← Host.Outcome.next.inj hstep, State.withOut_out] at hout
  cases henc : encOp codecConfig s.encVreq s.slots with
  | error e => rw [henc] at hout; cases hout
  | ok p => rw [henc] at hout; cases hout; exact ⟨_, rfl, rfl⟩

/-! ### Wire values and errors of the spec's parameters -/

/-- The wire value of a slot in range, in the numbers of R111. -/
theorem fieldWire_codecConfig {s : Slots} {f : Field} (h : ∀ v, s.get f = some v → inUserRange f v = true) :
    (fieldWire codecConfig s f : Int) = slotWire f (s.get f) := by
  cases hv : s.get f with
  | none => rw [fieldWire_none hv]; cases f <;> rfl
  | some v =>
    have hrange := h v hv
    rw [fieldWire_some hv]
    cases f <;> simp [inUserRange, toWire, slotWire, userBase] at hrange ⊢ <;> omega

/-- Settles O35: slots in range pass their checks, and the instruction holds their wire values. -/
theorem encCompletesWithWireValues : Obligations.EncCompletesWithWireValues := by
  intro s l hop hselect hrange
  have hok : ∀ f v, s.slots.get f = some v → slotOk codecConfig f v = true := fun f v hv => by
    rw [← inUserRange_eq_slotOk]; exact hrange f v hv
  have hops := operands_ofWire_wireOf (l := l) fun f _ => fieldWire_lt codecConfig_valid hok f
  refine ⟨_, Instr.lid_ofWire l (l.wireOf (fieldWire codecConfig s.slots)), fun f hf => ?_, ?_⟩
  · rw [hops, Lid.get_wireOf _ hf, fieldWire_codecConfig (hrange f)]
  · have hcodec : fieldCodec codecConfig s.slots l = .ok (l.wireOf (fieldWire codecConfig s.slots)) :=
      fieldCodec_eq_ok_iff.mpr ⟨hok, rfl⟩
    rw [step_enc hop, encOp, hselect, encode_of_lid (Instr.lid_ofWire l _), hops]
    simp only [hcodec, encResult]

theorem slotRangeError_codecConfig (f : Field) (v : Int) : slotRangeError codecConfig f v = slotPayload f v := by
  cases f <;> simp [slotRangeError, slotPayload, userBase, wireBounds]

/-- A field in canonical order: every field before it has a smaller index (R13). -/
theorem canonicalFields_split (f : Field) :
    ∃ fs gs, canonicalFields = fs ++ f :: gs ∧ ∀ g ∈ fs, fieldIndex g < fieldIndex f := by
  obtain ⟨fs, gs, hsplit⟩ := List.append_of_mem (show f ∈ canonicalFields by cases f <;> decide)
  have hsorted : canonicalFields.Pairwise fun f g => fieldIndex f < fieldIndex g := by decide
  rw [hsplit, List.pairwise_append] at hsorted
  obtain ⟨-, -, hbefore⟩ := hsorted
  exact ⟨fs, gs, hsplit, fun g hg => hbefore g hg f List.mem_cons_self⟩

/-- Settles O36: the first slot in canonical order that fails its check is reported, whatever layout was selected. -/
theorem encNamesFirstOffendingSlot : Obligations.EncNamesFirstOffendingSlot := by
  intro s f v hop hvreq hv hbad hearlier
  obtain ⟨l, hselect⟩ := exists_select_eq_ok hvreq s.slots.present
  obtain ⟨fs, gs, hsplit, hbefore⟩ := canonicalFields_split f
  have hnone : firstSlotError codecConfig s.slots fs = none := by
    rw [firstSlotError_eq_none_iff]
    intro g hg w hw
    rw [← inUserRange_eq_slotOk]
    exact hearlier g w (hbefore g hg) hw
  have hfirst : firstSlotError codecConfig s.slots canonicalFields = some (slotPayload f v) := by
    rw [hsplit, firstSlotError_append hnone hv (by rw [← inUserRange_eq_slotOk, hbad]), slotRangeError_codecConfig]
  have hcodec : fieldCodec codecConfig s.slots l = .error (slotPayload f v) := by rw [fieldCodec, hfirst]
  rw [step_enc hop, encOp, hselect]
  simp only [hcodec, encResult, State.raise_eq]

/-! ### TAGLEN after ENC -/

/-- The first byte of an encoding on the port dispatches to its layout (R156 a). -/
theorem tagDispatch_read_encode {i : Instr} {l : Lid} (h : i.lid = some l) :
    tagDispatch ((portBuffer (encode i)).read 0) = some l := by
  rw [portBuffer_read, tagDispatch_eq_some_iff]
  exact toNat_getD_encode_zero_shiftRight h

/-- Settles O38: the bytes on the port are an encoding, which begins with its layout's tag. -/
theorem taglenAgreesWithEnc : Obligations.TaglenAgreesWithEnc := by
  intro s t l buf hop hstep hout
  obtain ⟨bs, henc, rfl⟩ := encOp_of_step hop hstep hout
  obtain ⟨-, -, i, hl, -, rfl⟩ := encOp_eq_ok codecConfig_valid henc
  exact step_taglen_some rfl (tagDispatch_read_encode hl)

end Sys2Proof.Machine
end

section
/-! The round trips of the machine (spec/42_encoder.md R156 b; spec/44_decoder.md R198): `DEC` of the bytes of
`ENC` gives the slots back, for every usable choice of parameters, and `ENC` of the record of `DEC` gives the bytes back. -/

namespace Sys2Proof.Machine

/-! ### From slots to bytes and back -/

section
variable {c : Config} (hc : c.Valid) {vreq : BitVec 4} {slots : Slots} {l : Lid}
  (hselect : select vreq slots.present = .ok l) (hok : ∀ f v, slots.get f = some v → slotOk c f v = true)
include hc hselect

/-- An absent slot of the selected layout has a sentinel on the wire: a sub-second slot is present (R114). -/
theorem sentinel_of_absent {f : Field} (hf : f ∈ l.fields) (hnone : slots.get f = none) :
    (c.desc f).sentinel = some (fieldWire c slots f) := by
  have hsub : f.isSub = false := by
    by_contra hsub
    have hsub : f.isSub = true := by simpa using hsub
    obtain ⟨hpresent, -⟩ := present_of_mem_precisionOf (mem_precisionOf_of_select hselect hf hsub)
    rw [Slots.present, hnone] at hpresent
    cases hpresent
  obtain ⟨n, hn, -⟩ := hc.sentinel f hsub
  rw [fieldWire_none hnone, hn, Option.getD_some]

include hok

theorem legal_fieldWire {f : Field} (hf : f ∈ l.fields) : (c.desc f).legal (fieldWire c slots f) = true := by
  rw [FieldDesc.legal_iff]
  cases hv : slots.get f with
  | none => exact .inl (sentinel_of_absent hc hselect hf hv)
  | some v =>
    obtain ⟨hmin, hmax, -⟩ := wire_of_slotOk hc.step_pos (hok f v hv)
    exact .inr (by rw [fieldWire_some hv]; exact ⟨hmin, hmax⟩)

/-- A slot of the selected layout comes back from the wire as it was. -/
theorem get_recordOf_fieldWire {f : Field} (hf : f ∈ l.fields) :
    (recordOf c l.row.sub (l.wireOf (fieldWire c slots))).get f = slots.get f := by
  rw [Record.get_recordOf_of_mem c _ hf, settled_wireOf]
  cases hv : slots.get f with
  | none => rw [if_neg fun h => h.2 (sentinel_of_absent hc hselect hf hv)]; rfl
  | some v =>
    obtain ⟨-, hmax, hback⟩ := wire_of_slotOk hc.step_pos (hok f v hv)
    have hne : (c.desc f).sentinel ≠ some (toWire c f v) := fun h => (hc.lt_sentinel h hmax).false
    rw [fieldWire_some hv, if_pos ⟨hf, hne⟩, Option.map_some, hback]

end

/-- `DEC` of an encoding is the inverse codec of its instruction's wire values. -/
theorem decOp_encode {c : Config} {i : Instr} {l : Lid} {r : Record} (hl : i.lid = some l)
    (h : inverseCodec c l i.operands = .ok r) : decOp c l.len (portBuffer (encode i)) = .ok (l, r) := by
  have hlen : (encode i).length = l.len := by rw [encode_of_lid hl, length_serialize]
  refine decOp_eq_ok_iff.mpr ⟨rfl, tagDispatch_read_encode hl, ?_⟩
  rw [← hlen, portBuffer_readBytes, deserialize_encode hl, unpack_pack fun f _ => i.get_operands_lt f,
    Instr.operands_eq hl, h]

/-- The round trip of the pseudocode: the record that `DEC` gives of the bytes of `ENC`. -/
theorem decOp_of_encOp {c : Config} (hc : c.Valid) {vreq : BitVec 4} {slots : Slots} {l : Lid} {bs : List Byte}
    (henc : encOp c vreq slots = .ok (l, bs)) :
    bs.length = l.len ∧ ∃ g : Field → Nat, inverseCodec c l (l.wireOf g) = .ok (recordOf c l.row.sub (l.wireOf g)) ∧
      decOp c l.len (portBuffer bs) = .ok (l, recordOf c l.row.sub (l.wireOf g)) ∧
      ∀ f ∈ l.fields, (recordOf c l.row.sub (l.wireOf g)).get f = slots.get f := by
  obtain ⟨hselect, hok, i, hl, hops, rfl⟩ := encOp_eq_ok hc henc
  have hinv : inverseCodec c l (l.wireOf (fieldWire c slots)) =
      .ok (recordOf c l.row.sub (l.wireOf (fieldWire c slots))) := by
    refine inverseCodec_eq_ok_iff.mpr ⟨fun p hp => ?_, rfl⟩
    obtain ⟨hf, hw⟩ := Lid.mem_wireOf.mp hp
    rw [hw]
    exact legal_fieldWire hc hselect hok hf
  refine ⟨by rw [encode_of_lid hl, length_serialize], fieldWire c slots, hinv, decOp_encode hl (by rw [hops, hinv]),
    fun f => get_recordOf_fieldWire hc hselect hok⟩

/-- The sub-second slots of a decoded record follow from the stored one, which is always present. -/
theorem Record.subSecondsFollow_wireOf {c : Config} (hc : c.Valid) (l : Lid) (g : Field → Nat) :
    (recordOf c l.row.sub (l.wireOf g)).subSecondsFollow l.row.sub :=
  Record.subSecondsFollow_recordOf fun _ hf => ⟨_, settled_subField hc.noSentinel g hf⟩

/-- Settles O40: a slot of the layout comes back as it was; the derived slots are computed from the record's own. -/
theorem roundTripForEveryConfig : Obligations.RoundTripForEveryConfig := by
  intro c vreq slots l bs hc henc
  obtain ⟨hlen, g, -, hdec, hback⟩ := decOp_of_encOp hc henc
  exact ⟨hlen, _, by rw [hlen, hdec], hback, fun f => Record.get_recordOf_of_not_mem c g,
    Record.subSecondsFollow_wireOf hc l g, Record.tzHour_recordOf _ _ _, Record.tzMinute_recordOf _ _ _⟩

/-- Settles O39: the round trip of the pseudocode between two steps of the machine. -/
theorem encThenDecGivesSlotsBack : Obligations.EncThenDecGivesSlotsBack := by
  intro s t l buf hop hstep hout
  obtain ⟨bs, henc, rfl⟩ := encOp_of_step hop hstep hout
  obtain ⟨-, g, hinv, hdec, hback⟩ := decOp_of_encOp codecConfig_valid henc
  refine ⟨recordOf codecConfig l.row.sub (l.wireOf g), ?_, hback, fun f => Record.get_recordOf_of_not_mem _ g,
    Record.subSecondsFollow_wireOf codecConfig_valid l g, Record.ok_of_inverseCodec hinv⟩
  rw [step_dec rfl]
  simp only [hdec, decResult]
  rfl

/-! ### From bytes to slots and back -/

/-- The slots that re-encode a record: its own, of the three sub-second ones only that of the layout (R198). -/
theorem Record.get_toSlots (r : Record) (l : Lid) (f : Field) :
    (r.toSlots l).get f = if f.isSub = true ∧ f ∉ l.row.sub.field then none else r.get f := by
  cases f with
  | millisecond | microsecond | nanosecond =>
    cases hsub : l.row.sub <;> simp [Record.toSlots, Slots.get, Precision.field, Field.isSub, hsub]
  | _ => rfl

theorem Record.get_toSlots_of_mem (r : Record) {l : Lid} {f : Field} (hf : f ∈ l.fields) :
    (r.toSlots l).get f = r.get f := by
  rw [Record.get_toSlots, if_neg]
  rintro ⟨hsub, hnot⟩
  exact hnot (Lid.mem_subField_of_isSub hf hsub)

theorem Record.get_of_get_toSlots {r : Record} {l : Lid} {f : Field} {v : Int} (h : (r.toSlots l).get f = some v) :
    r.get f = some v := by
  rw [Record.get_toSlots] at h
  split at h
  · cases h
  · exact h

/-- With the stored sub-second slot present and no other, the precision is the layout's. -/
theorem Record.precisionOf_toSlots {r : Record} {l : Lid} (h : ∀ f ∈ l.row.sub.field, (r.get f).isSome) :
    precisionOf (r.toSlots l).present = l.row.sub := by
  have hpresent (f : Field) (hf : f.isSub = true) : (r.toSlots l).present f = decide (f ∈ l.row.sub.field) := by
    rw [Slots.present, Record.get_toSlots]
    by_cases hmem : f ∈ l.row.sub.field
    · simp [hmem, h f hmem]
    · simp [hmem, hf]
  rw [precisionOf, hpresent _ rfl, hpresent _ rfl, hpresent _ rfl]
  cases l.row.sub <;> rfl

/-- The wire values of a record's slots are those the record was made of. -/
theorem fieldWire_toSlots {c : Config} (hc : c.Valid) {l : Lid} (g : Field → Nat) {f : Field} (hf : f ∈ l.fields) :
    fieldWire c ((recordOf c l.row.sub (l.wireOf g)).toSlots l) f = g f := by
  have hget := Record.get_toSlots_of_mem (recordOf c l.row.sub (l.wireOf g)) hf
  rw [Record.get_recordOf_of_mem c _ hf, settled_wireOf] at hget
  split at hget
  · rw [fieldWire_some hget, toWire_fromWire hc.step_pos]
  · rename_i hnot
    have hs : (c.desc f).sentinel = some (g f) := by
      by_contra hs
      exact hnot ⟨hf, hs⟩
    rw [fieldWire_none hget, hs, Option.getD_some]

/-- Re-encoding the record of legal wire values packs those wire values again. -/
theorem encOp_toSlots {l : Lid} {g : Field → Nat} {r : Record} (h : inverseCodec codecConfig l (l.wireOf g) = .ok r) :
    encOp codecConfig (familyRequest l.family) (r.toSlots l) = .ok (l, serialize (pack l (l.wireOf g)) l.len) := by
  have hrecord := Record.ok_of_inverseCodec h
  obtain ⟨-, rfl⟩ := inverseCodec_eq_ok_iff.mp h
  have hstored : ∀ f ∈ l.row.sub.field, ((recordOf codecConfig l.row.sub (l.wireOf g)).get f).isSome := fun f hf => by
    rw [Record.get_recordOf codecConfig _ (.inr hf), settled_subField codecConfig_valid.noSentinel g hf]
    rfl
  have hok : ∀ f v, ((recordOf codecConfig l.row.sub (l.wireOf g)).toSlots l).get f = some v →
      slotOk codecConfig f v = true := fun f v hv => by
    rw [← inUserRange_eq_slotOk]
    exact hrecord.range f v (Record.get_of_get_toSlots hv)
  have hcodec := fieldCodec_eq_ok_iff.mpr
    ⟨hok, (Lid.wireOf_congr fun f => fieldWire_toSlots codecConfig_valid g).symm⟩
  rw [encOp, select_familyRequest, Record.precisionOf_toSlots hstored, layoutOf_family_sub]
  simp only [hcodec]

/-- Settles O46: the record was made of the buffer's wire values, which pack to the buffer's word. -/
theorem decThenEncReproducesBytes : Obligations.DecThenEncReproducesBytes := by
  intro s t l r hop hstep hout hpad
  rw [step_dec hop] at hstep
  rw [← Host.Outcome.next.inj hstep, State.withOut_out] at hout
  have hdec : decOp codecConfig s.decLen s.decBytes = .ok (l, r) := by
    cases hdec : decOp codecConfig s.decLen s.decBytes with
    | error e => rw [hdec] at hout; cases hout
    | ok p => rw [hdec] at hout; cases hout; rfl
  obtain ⟨-, htag, hinv⟩ := decOp_eq_ok_iff.mp hdec
  have hlen := Memory.length_readBytes s.decBytes 0 l.len
  have hword : pack l (unpack l (deserialize (s.decBytes.readBytes 0 l.len))) =
      deserialize (s.decBytes.readBytes 0 l.len) := by
    have hcons : s.decBytes.readBytes 0 l.len = s.decBytes.read 0 :: s.decBytes.readBytes 1 (l.len - 1) := by
      rw [← Memory.readBytes_succ, Nat.sub_add_cancel l.len_pos]
    refine pack_unpack_of_pad_zero ?_ hpad
    rw [hcons] at hlen ⊢
    exact deserialize_shiftRight_tag htag hlen
  have hserialize := serialize_deserialize (s.decBytes.readBytes 0 l.len)
  rw [hlen] at hserialize
  rw [unpack_eq_wireOf] at hinv hword
  have henc := encOp_toSlots hinv
  rw [hword, hserialize] at henc
  refine ⟨portBuffer (s.decBytes.readBytes 0 l.len), ?_, fun x hx => ?_⟩
  · rw [step_enc rfl]
    simp only [henc, encResult]
    rfl
  · rw [portBuffer_read]
    simp [Memory.readBytes, hx]

end Sys2Proof.Machine
end

section
/-! Where an `OutOfRange` comes from (spec/60_exceptions.md R222, R229), and the invariant that every step keeps
(spec/10_state.md R17, R18, R24). -/

namespace Sys2Proof.Machine

/-! ### The origin of an OutOfRange -/

/-- An error before the layout acts is that of `ENC`'s stages, or says that the bytes do not make up a value. -/
theorem fetch_eq_error {s : State} {e : ErrorKind} (h : fetch s = .error e) :
    fetchEnc s = .error e ∨ e = .invalidLength ∨ e = .shortRead := by
  cases hop : s.op with
  | idle | taglen => rw [fetch, hop] at h; cases h
  | enc => rw [fetch, hop] at h; exact .inl h
  | dec =>
    rw [fetch, hop] at h
    simp only [fetchDec] at h
    split at h
    · cases h; exact .inr (.inl rfl)
    · split at h
      · cases h
      · split at h <;> cases h
        exact .inr (.inl rfl)
  | streamDec =>
    rw [fetch, hop] at h
    simp only [fetchStream_eq] at h
    split at h <;> cases h
    exact .inr (.inr rfl)

theorem fieldCodec_eq_error {c : Config} {s : Slots} {l : Lid} {e : ErrorKind} (h : fieldCodec c s l = .error e) :
    ∃ f v, s.get f = some v ∧ slotOk c f v = false ∧ e = slotRangeError c f v := by
  unfold fieldCodec at h
  split at h
  · rename_i hfirst
    cases h
    exact firstSlotError_eq_some hfirst
  · cases h

/-- An `OutOfRange` on the outputs is that of a slot that fails its check or of a wire value that fails its
re-check. -/
theorem outOfRange_cases {s : State} {f : Field} {v lo hi : Int}
    (h : (fetch s).output s.op = .failed (.outOfRange f v lo hi)) :
    (∃ x, s.slots.get f = some x ∧ slotOk codecConfig f x = false ∧ .outOfRange f v lo hi = slotPayload f x) ∨
    (∃ w : Nat, w < 2 ^ f.width ∧ (codecConfig.desc f).legal w = false ∧
      v = w ∧ lo = (codecConfig.desc f).min ∧ hi = (codecConfig.desc f).max) := by
  cases hfetch : fetch s with
  | nothing => rw [hfetch] at h; cases h
  | error e =>
    rw [hfetch] at h
    cases h
    obtain henc | he | he := fetch_eq_error hfetch
    · obtain hselect | ⟨l, -, hcodec⟩ := fetchEnc_eq_error_iff.mp henc
      · cases (select_eq_error_iff.mp hselect).2
      · obtain ⟨g, x, hx, hbad, he⟩ := fieldCodec_eq_error hcodec
        rw [slotRangeError_codecConfig] at he
        have hg : g = f := by cases g <;> cases he <;> rfl
        subst hg
        exact .inl ⟨x, hx, hbad, he⟩
    · cases he
    · cases he
  | instr i =>
    rw [hfetch] at h
    obtain he | ⟨g, w, hmem, hillegal, he⟩ := instrOutput_eq_failed h
    · cases he
    · cases he
      cases hl : i.lid with
      | none => rw [Fetch.output, instrOutput_of_lid_none hl] at h; cases h
      | some l => exact .inr ⟨w, Instr.operands_lt hl hmem, hillegal, rfl, rfl, rfl⟩

/-- The payload of a slot that fails its check is out of its bounds, or a timezone offset off the grid (R222). -/
theorem outside_of_slotPayload {f : Field} {x v lo hi : Int} (hbad : slotOk codecConfig f x = false)
    (h : .outOfRange f v lo hi = slotPayload f x) : v < lo ∨ hi < v ∨ (f = .tz ∧ v % 15 ≠ 0) := by
  rw [← inUserRange_eq_slotOk] at hbad
  cases f <;> cases h <;> simp [inUserRange, wireBounds] at hbad ⊢ <;> omega

/-- An illegal wire value is out of its bounds (R121). -/
theorem outside_of_not_legal {f : Field} {w : Nat} (h : (codecConfig.desc f).legal w = false) :
    (w : Int) < (codecConfig.desc f).min ∨ ((codecConfig.desc f).max : Int) < w := by
  have hnot : ¬((codecConfig.desc f).min ≤ w ∧ w ≤ (codecConfig.desc f).max) := fun hin => by
    rw [FieldDesc.legal_iff.mpr (.inr hin)] at h
    cases h
  omega

/-- Settles O53: a slot's value fits its port, and is one less than it for month and day; a wire value and the bounds
fit their widths. -/
theorem errorPayloadFitsPorts : Obligations.ErrorPayloadFitsPorts := by
  intro s t f v lo hi hfit hstep hout
  rw [out_of_step hstep] at hout
  obtain ⟨x, hx, -, hpayload⟩ | ⟨w, hw, -, rfl, rfl, rfl⟩ := outOfRange_cases hout
  · obtain ⟨hslots, -⟩ := hfit
    obtain ⟨hlo, hhi⟩ := hslots f x hx
    have hwidth : codecConfig.inW = 32 := rfl
    rw [hwidth] at hlo hhi
    rw [hx]
    cases f <;> cases hpayload <;> simp [wireBounds] at hlo hhi ⊢ <;> omega
  · cases f <;> simp [Field.width] at hw ⊢ <;> omega

/-! ### The invariant -/

/-- What a step puts on the outputs is consistent, whatever the state. -/
theorem output_ok (s : State) : ((fetch s).output s.op).Ok := by
  cases hout : (fetch s).output s.op with
  | noValue | tagged l => trivial
  | encoded l buf =>
    cases hfetch : fetch s with
    | nothing | error e => rw [hfetch] at hout; cases hout
    | instr i =>
      rw [hfetch, Fetch.output] at hout
      cases hl : i.lid with
      | none => rw [instrOutput_of_lid_none hl] at hout; cases hout
      | some k =>
        rw [instrOutput_of_lid hl] at hout
        obtain ⟨-, rfl, rfl⟩ := layoutOutput_eq_encoded hl hout
        have hlen : (encode i).length = l.len := by rw [encode_of_lid hl, length_serialize]
        exact ⟨portBuffer_wf _, by rw [← hlen]; exact portBuffer_below _, tagDispatch_read_encode hl⟩
  | decoded l r => exact Record.ok_of_output hout
  | failed e =>
    cases e with
    | outOfRange f v lo hi =>
      obtain ⟨x, -, hbad, hpayload⟩ | ⟨w, -, hillegal, rfl, rfl, rfl⟩ := outOfRange_cases hout
      · exact outside_of_slotPayload hbad hpayload
      · exact (outside_of_not_legal hillegal).imp_right .inl
    | unsupportedType | invalidLength | invalidTag | shortRead => trivial

/-- Settles O56: by the frame of a step both byte spaces and the stream's length are as before; the new output is
consistent by itself. -/
theorem everyStepKeepsInvariant : Obligations.EveryStepKeepsInvariant := by
  intro s t hinv hstep
  obtain ⟨-, -, -, -, -, hlen, hbytes, hstream, -⟩ := stepFrame s t hstep
  exact ⟨hbytes ▸ hinv.decWf, hbytes ▸ hinv.decBelow, hstream ▸ hinv.streamWf,
    by rw [hstream, hlen]; exact hinv.streamBelow, by rw [out_of_step hstep]; exact output_ok s⟩

end Sys2Proof.Machine
end
